-- ==== Sys2Proof/Word.lean ====
section
/-! DEFINITION. The bit-vector types of the block (00_scope.md R9): bytes, addresses, field ids, checksums. -/

namespace Sys2Proof

/-- A byte, logical or line (R9, R78). -/
abbrev Byte := BitVec 8

/-- A 7-bit bus device address (20_memory.md R51). -/
abbrev BusAddr := BitVec 7

/-- A 32-bit field id (30_encoding.md R70). -/
abbrev FieldId := BitVec 32

/-- A 16-bit CRC (40_crc.md R100). -/
abbrev Crc := BitVec 16

end Sys2Proof
end

