-- ==== Sys2Proof/Config.lean ====
section
/-! DEFINITION. The configuration `C` of the block (00_scope.md R8; 10_state.md R30, R32) as the host fixes it before
reset, and the free values: results the spec does not state. -/

namespace Sys2Proof

/-- A point that can be commanded, or one that is only polled (R30). -/
inductive Kind
  | writable
  | readOnly
deriving DecidableEq, Repr

/-- The seven value encodings (R30; `Text` by 90_conflicts.md C4). -/
inductive Encoding
  | uint8
  | int8
  | int16
  | int32
  | temperature
  | roomTemperature
  | text
deriving DecidableEq, Repr

/-- One static point configuration `C.POINTS[i]` (R30). The enable byte is the number the host gives, which R33 checks. -/
structure PointConf where
  fieldId : FieldId
  kind : Kind
  encoding : Encoding
  updateInterval : Nat
  retryInterval : Nat
  enableByte : Nat
  isBroadcast : Bool
deriving DecidableEq, Repr

/-- The block-wide parameters (R8, R32), as the numbers the host gives, which R33 checks. -/
structure BlockConf where
  srcAddr : Nat
  dstAddr : Nat
  postSetPollInterval : Nat
  maxPoints : Nat
deriving DecidableEq, Repr

/-- The whole configuration `C` (R8, R32): the block-wide parameters and the points in registration order. -/
structure Configuration where
  block : BlockConf
  points : List PointConf
deriving DecidableEq, Repr

/-- FREE VALUE (log 10). The integer encoding `V` of a value on which R133 states none: a value that is no integer for
the integer encodings, and one outside 0..255 for `UInt8`. Nothing constrains it. -/
opaque Config.unstatedCode : Encoding → Rat → BitVec 32

/-- FREE VALUE (log 11). The length byte of a packet whose payload has more than 244 bytes, outside R111's operands. -/
opaque Config.unstatedLength : Nat → Byte

end Sys2Proof
end

