-- ==== Sys2Proof/Syntax.lean ====
section
/-! DEFINITION. The rows of spec/opcode_table.json as one inductive, their operands, and the encoded forms the decoder
reads (30_encoding.md, introduction: six formats). -/

namespace Sys2Proof

/-- The fields of a completed frame other than its command byte, as the receiver holds them: the field id in arrival
order (R76), the length byte and the transmitted CRC verbatim (R110). -/
structure Frame where
  src : BusAddr
  dst : Byte
  len : Byte
  field : FieldId
  payload : List Byte
  crc : Crc
deriving DecidableEq, Repr

/-- The packet record (41_packet_model.md R110). -/
structure Packet where
  cmd : Byte
  src : BusAddr
  dst : Byte
  len : Byte
  field : FieldId
  payload : List Byte
  crc : Crc
deriving DecidableEq, Repr

/-- The packet a frame with command byte `cmd` decodes to. -/
def Frame.toPacket (cmd : Byte) (f : Frame) : Packet :=
  { cmd := cmd, src := f.src, dst := f.dst, len := f.len, field := f.field, payload := f.payload, crc := f.crc }

/-- The operands of `build_set` (42_builders.md R131) but for its encoding and broadcast flag, which the row fixes. -/
structure BuildArgs where
  src : BusAddr
  dst : Byte
  field : FieldId
  value : Rat
  enableByte : Byte
deriving DecidableEq, Repr

/-- The operand of a request (R83): none, one line byte, or a point index with a value. -/
inductive Operand
  | none
  | raw (b : Byte)
  | target (point : Nat) (value : Rat)
deriving DecidableEq, Repr

/-- One constructor per row of the opcode table. -/
inductive Instr
  -- frame.command: a completed valid frame with that command byte (R72, R73)
  | cmdNone (f : Frame)
  | cmdOpaque01 (f : Frame)
  | cmdInf (f : Frame)
  | cmdSet (f : Frame)
  | cmdAck (f : Frame)
  | cmdNack (f : Frame)
  | cmdGet (f : Frame)
  | cmdRet (f : Frame)
  | cmdOpaque08 (low : BitVec 3) (f : Frame)
  | cmdOpaque10 (low : BitVec 4) (f : Frame)
  | cmdOpaque20 (low : BitVec 5) (f : Frame)
  | cmdOpaque40 (low : BitVec 6) (f : Frame)
  | cmdOpaque80 (low : BitVec 7) (f : Frame)
  -- req: the requests of the host (R83, R84)
  | feed (now : Nat) (raw : Byte)
  | tick (now : Nat)
  | write (now : Nat) (point : Nat) (value : Rat)
  | reservedOp (now : Nat) (operand : Operand)
  -- builder.sel (R85)
  | setU8 (a : BuildArgs)
  | infU8 (a : BuildArgs)
  | setI8 (a : BuildArgs)
  | infI8 (a : BuildArgs)
  | setI16 (a : BuildArgs)
  | infI16 (a : BuildArgs)
  | setI32 (a : BuildArgs)
  | infI32 (a : BuildArgs)
  | setTemp (a : BuildArgs)
  | infTemp (a : BuildArgs)
  | setRoomTemp (a : BuildArgs)
  | infRoomTemp (a : BuildArgs)
  | selUnused (low : BitVec 2) (a : BuildArgs)
  -- builder.get (R130): the three bits are ignored
  | buildGet (e : BitVec 3) (src : BusAddr) (dst : Byte) (field : FieldId)
  -- parser.enc (R82)
  | parseU8 (p : List Byte)
  | parseI8 (p : List Byte)
  | parseI16 (p : List Byte)
  | parseI32 (p : List Byte)
  | parseTemp (p : List Byte)
  | parseRoomTemp (p : List Byte)
  | parseText (p : List Byte)
  | parseUnused7 (p : List Byte)
  -- function
  | crc16 (bytes : List Byte)
  | serialize (p : Packet)
deriving DecidableEq, Repr

/-- An operation in its encoded form, one constructor per format of the opcode table. The operands that the table gives
no bits (`now` in ℕ, a value in ℚ, byte sequences) stand beside the selector. -/
inductive Code
  | req (op : BitVec 2) (now : Nat) (operand : Operand)
  | frame (bytes : List Byte)
  | builder (sel : BitVec 4) (a : BuildArgs)
  | builderGet (e : BitVec 3) (src : BusAddr) (dst : Byte) (field : FieldId)
  | parser (enc : BitVec 3) (p : List Byte)
  | crc16 (bytes : List Byte)
  | serialize (p : Packet)
deriving DecidableEq, Repr

/-- What the outside presents to the block: the reset input with the configuration the host has fixed before it
(70_reset_and_hazards.md R252), or an encoded operation. -/
inductive Input
  | reset (c : Configuration)
  | op (c : Code)
deriving DecidableEq, Repr

end Sys2Proof
end

