-- ==== Sys2Proof/Machine/Params.lean ====
section
/-! DEFINITION. The constants of 00_scope.md R7, the codes of 30_encoding.md R72 and R82, and the check of a
configuration (10_state.md R33). -/

namespace Sys2Proof.Machine

/-- `START_BYTE` (R7). -/
def startByte : Byte := 0xDC

/-- `SRC_MARK`, set on the wire source byte (R7). -/
def srcMark : Byte := 0x80

/-- `MIN_FRAME_LEN`: header 5, field id 4, CRC 2 (R7). -/
def minFrameLen : Nat := 11

/-- `CRC_POLY` (R7). -/
def crcPoly : Crc := 0x1021

/-- `BROADCAST_DST` (R7). -/
def broadcastDst : Byte := 0x7F

/-- `MAX_RETRIES`, the cap on both retry counters (R7). -/
def maxRetries : Nat := 5

/-- `ENABLE_OVERRIDE_FROM` (R7). -/
def enableOverrideFrom : Byte := 0x06

/-- `ENABLE_OVERRIDE_TO` (R7). -/
def enableOverrideTo : Byte := 0x05

/-- `LINE_INVERT`, the XOR mask of every line byte (R7). -/
def lineInvert : Byte := 0xFF

/-- `TEMP_SCALE`: temperatures are 1/64 °C fixed point (R7). -/
def tempScale : Rat := 64

/-- Command byte of Info (R72). -/
def cmdInfo : Byte := 0x02

/-- Command byte of Set (R72). -/
def cmdSetCode : Byte := 0x03

/-- Command byte of Ack (R72). -/
def cmdAckCode : Byte := 0x04

/-- Command byte of Nack (R72). -/
def cmdNackCode : Byte := 0x05

/-- Command byte of Get (R72). -/
def cmdGetCode : Byte := 0x06

/-- Command byte of Ret (R72). -/
def cmdRetCode : Byte := 0x07

/-- The value-encoding codes (R82). -/
def encodingCode : Encoding → BitVec 3
  | .uint8 => 0
  | .int8 => 1
  | .int16 => 2
  | .int32 => 3
  | .temperature => 4
  | .roomTemperature => 5
  | .text => 6

/-- A point configuration passes R33: a Text point is ReadOnly and the enable byte is 0..255. -/
def pointConfOk (p : PointConf) : Bool :=
  (p.encoding != .text || p.kind == .readOnly) && decide (p.enableByte ≤ 255)

/-- A configuration is well formed (R33). -/
def configOk (c : Configuration) : Bool :=
  decide (c.block.srcAddr ≤ 127) && decide (c.block.dstAddr ≤ 127)
    && decide (c.points.length ≤ c.block.maxPoints) && c.points.all pointConfOk

end Sys2Proof.Machine
end

