-- ==== Sys2Proof/Machine/Crc.lean ====
section
/-! DEFINITION. The CRC-16/XMODEM calculator (40_crc.md R100): initial value 0, polynomial 0x1021, no reflection. -/

namespace Sys2Proof.Machine

/-- One of the eight shifts: left by one, XOR with the polynomial if the top bit was set (R100). -/
def crcShift (c : Crc) : Crc :=
  if c.msb then (c <<< 1) ^^^ crcPoly else c <<< 1

/-- One byte into the running CRC: XOR into the high byte, then eight shifts (R100). -/
def crcByte (c : Crc) (b : Byte) : Crc :=
  crcShift (crcShift (crcShift (crcShift (crcShift (crcShift (crcShift (crcShift
    (c ^^^ (b.zeroExtend 16 <<< 8)))))))))

/-- `crc16(bytes)` (R100). -/
def crc16 (bytes : List Byte) : Crc :=
  bytes.foldl crcByte 0

end Sys2Proof.Machine
end

