-- ==== Sys2Proof/Machine/Wire.lean ====
section
/-! DEFINITION. Bytes on the wire: big-endian splitting, the field id's order (30_encoding.md R74 to R76), line inversion
(R78), the frame layout (R70) and the serializer (41_packet_model.md R111). -/

namespace Sys2Proof.Machine

/-- A 16-bit word as two bytes, high byte first (20_memory.md R53). -/
def bytes16 (v : BitVec 16) : List Byte :=
  [v.extractLsb' 8 8, v.extractLsb' 0 8]

/-- A 32-bit word as four bytes, high byte first (R53). -/
def bytes32 (v : BitVec 32) : List Byte :=
  [v.extractLsb' 24 8, v.extractLsb' 16 8, v.extractLsb' 8 8, v.extractLsb' 0 8]

/-- A field id with its two middle bytes exchanged (R75). -/
def swapMiddle (f : FieldId) : FieldId :=
  f.extractLsb' 24 8 ++ f.extractLsb' 8 8 ++ f.extractLsb' 16 8 ++ f.extractLsb' 0 8

/-- The commands whose frames carry the field id with its middle bytes exchanged: Info, Set and Get (R75). -/
def swapsField (cmd : Byte) : Bool :=
  cmd == cmdInfo || cmd == cmdSetCode || cmd == cmdGetCode

/-- The field id's four bytes as a sender of command `cmd` puts them on the wire (R74, R75). -/
def fieldBytes (cmd : Byte) (f : FieldId) : List Byte :=
  bytes32 (if swapsField cmd then swapMiddle f else f)

/-- One more field-id byte as it arrives: shift left by eight, the new byte in bits 7:0 (R76, R156). -/
def fieldPush (f : FieldId) (b : Byte) : FieldId :=
  (f <<< 8) ||| b.zeroExtend 32

/-- A line byte from a logical byte, and back (R78). -/
def invertByte (b : Byte) : Byte := b ^^^ lineInvert

/-- The logical source byte: the address with the marker bit (R51). -/
def sourceByte (src : BusAddr) : Byte := src.zeroExtend 8 ||| srcMark

/-- The bytes of a frame before its CRC, the field id's four bytes given (R70). -/
def frameBody (src : BusAddr) (dst len cmd : Byte) (fid payload : List Byte) : List Byte :=
  [startByte, sourceByte src, dst, len, cmd] ++ fid ++ payload

/-- The length byte of a packet with `n` payload bytes: `11 + n` (R71, R112). Beyond one byte the spec states none. -/
def lengthByte (n : Nat) : Byte :=
  if minFrameLen + n ≤ 255 then BitVec.ofNat 8 (minFrameLen + n) else Config.unstatedLength n

/-- The bytes of a packet's frame before its CRC, as R111 builds them. -/
def packetBody (p : Packet) : List Byte :=
  frameBody p.src p.dst (lengthByte p.payload.length) p.cmd (fieldBytes p.cmd p.field) p.payload

/-- `p.len <- L; p.crc <- c` of R111: the packet with the length and the CRC of its serialization. -/
def fillPacket (p : Packet) : Packet :=
  { p with len := lengthByte p.payload.length, crc := crc16 (packetBody p) }

/-- The bytes `serialize(p)` returns (R111): the body and its CRC, high byte first. -/
def serializeBytes (p : Packet) : List Byte :=
  packetBody p ++ bytes16 (crc16 (packetBody p))

/-- The bytes of a received frame before its CRC: the field id in arrival order (R76, R102). -/
def receivedBody (cmd : Byte) (f : Frame) : List Byte :=
  frameBody f.src f.dst f.len cmd (bytes32 f.field) f.payload

end Sys2Proof.Machine
end

