-- ==== Sys2Proof/Machine/Operands.lean ====
section
/-! DEFINITION. Values as operands: rounding (00_scope.md R11), the domains and integer encodings of written values
(42_builders.md R133), the qualifier byte (R132), and the payload parsers (41_packet_model.md R113 to R121). -/

namespace Sys2Proof

/-- A decoded value (92_eei_decisions.md D28): an integer, an exact rational, or the bytes of a text. -/
inductive Value
  | int (z : Int)
  | rat (q : Rat)
  | text (bytes : List Byte)
deriving DecidableEq, Repr

end Sys2Proof

namespace Sys2Proof.Machine

/-- `round(x)`: the nearest integer, ties away from zero (R11). -/
def roundHalfAway (x : Rat) : Int :=
  if 0 ≤ x then (x + 1 / 2).floor else -(-x + 1 / 2).floor

/-- `round(v*64)`, the fixed-point number of a temperature (R133). -/
def scaled (v : Rat) : Int := roundHalfAway (v * tempScale)

/-- `v` is an integer from `lo` to `hi`. -/
def intWithin (lo hi : Int) (v : Rat) : Bool :=
  v.den == 1 && decide (lo ≤ v.num) && decide (v.num ≤ hi)

/-- The domain of a written value (R133). A Text point has none: no builder exists for it (R146). -/
def inDomain (enc : Encoding) (v : Rat) : Bool :=
  match enc with
  | .uint8 => intWithin 0 255 v
  | .int8 => intWithin (-128) 127 v
  | .int16 => intWithin (-32768) 32767 v
  | .int32 => intWithin (-2147483648) 2147483647 v
  | .temperature => decide (-32768 ≤ scaled v) && decide (scaled v ≤ 32767)
  | .roomTemperature => decide (-32768 ≤ scaled v) && decide (scaled v ≤ 32767)
  | .text => false

/-- The integer encoding `V` of a value, its low bits used as wide as the encoding (R133; the remainders of R136 to
R145 are taken by the narrowing). Where the spec states no `V` it is the free value of log 10. -/
def valueCode (enc : Encoding) (v : Rat) : BitVec 32 :=
  match enc with
  | .uint8 => if inDomain .uint8 v then BitVec.ofInt 32 v.num else Config.unstatedCode .uint8 v
  | .int8 => if v.den = 1 then BitVec.ofInt 32 v.num else Config.unstatedCode .int8 v
  | .int16 => if v.den = 1 then BitVec.ofInt 32 v.num else Config.unstatedCode .int16 v
  | .int32 => if v.den = 1 then BitVec.ofInt 32 v.num else Config.unstatedCode .int32 v
  | .temperature => BitVec.ofInt 32 (scaled v)
  | .roomTemperature => BitVec.ofInt 32 (scaled v)
  | .text => Config.unstatedCode .text v

/-- The value bytes of a built payload, big-endian at the encoding's width (R79). -/
def valueBytes (enc : Encoding) (v : Rat) : List Byte :=
  match enc with
  | .uint8 => [(valueCode .uint8 v).extractLsb' 0 8]
  | .int8 => [(valueCode .int8 v).extractLsb' 0 8]
  | .int16 => bytes16 ((valueCode .int16 v).extractLsb' 0 16)
  | .int32 => bytes32 (valueCode .int32 v)
  | .temperature => bytes16 ((valueCode .temperature v).extractLsb' 0 16)
  | .roomTemperature => bytes16 ((valueCode .roomTemperature v).extractLsb' 0 16)
  | .text => []

/-- The qualifier byte (R81, R132): the enable byte, but 0x05 for enable byte 0x06 and a written value of exactly 0. -/
def qualifier (enableByte : Byte) (v : Rat) : Byte :=
  if enableByte = enableOverrideFrom ∧ v = 0 then enableOverrideTo else enableByte

/-- `parse_u8` (R113). -/
def parseUnsigned8 : List Byte → Int × Bool
  | [_, b] => (b.toNat, true)
  | _ => (0, false)

/-- `parse_i8` (R114). -/
def parseSigned8 : List Byte → Int × Bool
  | [_, b] => (b.toInt, true)
  | _ => (0, false)

/-- `parse_i16` (R115). -/
def parseSigned16 : List Byte → Int × Bool
  | [_, hi, lo] => ((hi ++ lo).toInt, true)
  | _ => (0, false)

/-- `parse_i32` (R117). -/
def parseSigned32 : List Byte → Int × Bool
  | [_, b3, b2, b1, b0] => ((b3 ++ b2 ++ b1 ++ b0).toInt, true)
  | _ => (0, false)

/-- `parse_temperature` (R116): `parse_i16` divided by 64, exactly. -/
def parseTemperature (p : List Byte) : Rat × Bool :=
  ((parseSigned16 p).1 / tempScale, (parseSigned16 p).2)

/-- `parse_roomtemperature` (R119) is `parse_temperature`. -/
def parseRoomTemperature (p : List Byte) : Rat × Bool := parseTemperature p

/-- `parse_text` (R118): all of the payload. -/
def parseWholeText (p : List Byte) : List Byte × Bool := (p, true)

/-- `decode(enc, p)` (R120). -/
def decodeValue (enc : Encoding) (p : List Byte) : Value × Bool :=
  match enc with
  | .uint8 => (.int (parseUnsigned8 p).1, (parseUnsigned8 p).2)
  | .int8 => (.int (parseSigned8 p).1, (parseSigned8 p).2)
  | .int16 => (.int (parseSigned16 p).1, (parseSigned16 p).2)
  | .int32 => (.int (parseSigned32 p).1, (parseSigned32 p).2)
  | .temperature => (.rat (parseTemperature p).1, (parseTemperature p).2)
  | .roomTemperature => (.rat (parseRoomTemperature p).1, (parseRoomTemperature p).2)
  | .text => (.text (parseWholeText p).1, (parseWholeText p).2)

end Sys2Proof.Machine
end

