-- ==== Sys2Proof/WellFormed.lean ====
section
/-! DEFINITION. When an instruction is well formed: its operands lie where the spec's rules for the row put them. -/

namespace Sys2Proof

open Sys2Proof.Machine

/-- A completed frame is valid under command byte `cmd`: its length byte is `11 + len(payload)` (30_encoding.md R71, which
also bounds the payload at 244 bytes) and its CRC is that of its bytes (R77, 43_receiver.md R163). -/
def Frame.wf (cmd : Byte) (f : Frame) : Bool :=
  f.len.toNat == minFrameLen + f.payload.length && f.crc == crc16 (receivedBody cmd f)

/-- The command byte of an opaque-tag row: the row's fixed high bits and the free low bits (R73). -/
def opaqueCommand (fixed : Byte) {n : Nat} (low : BitVec n) : Byte :=
  fixed ||| low.zeroExtend 8

/-- An instruction is well formed: a frame is valid (R71, R163), a builder's value lies in the row's domain (R133), and a
packet to serialize has at most 244 payload bytes (R111). -/
def Instr.wf : Instr → Bool
  | .cmdNone f => f.wf 0x00
  | .cmdOpaque01 f => f.wf 0x01
  | .cmdInf f => f.wf 0x02
  | .cmdSet f => f.wf 0x03
  | .cmdAck f => f.wf 0x04
  | .cmdNack f => f.wf 0x05
  | .cmdGet f => f.wf 0x06
  | .cmdRet f => f.wf 0x07
  | .cmdOpaque08 low f => f.wf (opaqueCommand 0x08 low)
  | .cmdOpaque10 low f => f.wf (opaqueCommand 0x10 low)
  | .cmdOpaque20 low f => f.wf (opaqueCommand 0x20 low)
  | .cmdOpaque40 low f => f.wf (opaqueCommand 0x40 low)
  | .cmdOpaque80 low f => f.wf (opaqueCommand 0x80 low)
  | .feed _ _ => true
  | .tick _ => true
  | .write _ _ _ => true
  | .reservedOp _ _ => true
  | .setU8 a => inDomain .uint8 a.value
  | .infU8 a => inDomain .uint8 a.value
  | .setI8 a => inDomain .int8 a.value
  | .infI8 a => inDomain .int8 a.value
  | .setI16 a => inDomain .int16 a.value
  | .infI16 a => inDomain .int16 a.value
  | .setI32 a => inDomain .int32 a.value
  | .infI32 a => inDomain .int32 a.value
  | .setTemp a => inDomain .temperature a.value
  | .infTemp a => inDomain .temperature a.value
  | .setRoomTemp a => inDomain .roomTemperature a.value
  | .infRoomTemp a => inDomain .roomTemperature a.value
  | .selUnused _ _ => true
  | .buildGet _ _ _ _ => true
  | .parseU8 _ => true
  | .parseI8 _ => true
  | .parseI16 _ => true
  | .parseI32 _ => true
  | .parseTemp _ => true
  | .parseRoomTemp _ => true
  | .parseText _ => true
  | .parseUnused7 _ => true
  | .crc16 _ => true
  | .serialize p => decide (p.payload.length ≤ 244)

end Sys2Proof
end

