-- ==== Sys2Proof/Decode.lean ====
section
/-! DEFINITION. The decoder, total on every encoded form and rejecting by name; the encoder, from the same tables; the
opcode table as rows of masks and patterns; and the numbering of a table word (log 8). -/

namespace Sys2Proof

open Sys2Proof.Machine

/-- Why an encoded form is no instruction. -/
inductive DecodeError
  /-- The first byte is not the start byte (43_receiver.md R151). -/
  | notStart
  /-- The source byte lacks its marker bit (R152). -/
  | noSourceMarker
  /-- The length byte is below 11 (R163). -/
  | shortLength
  /-- There are not as many bytes as the length byte says (30_encoding.md R70, R86). -/
  | wrongSize
  /-- The transmitted CRC is not the CRC of the bytes before it (R163). -/
  | badCrc
  /-- The operand is not the one the request selector takes (R83). -/
  | wrongOperand
deriving DecidableEq, Repr

/-- The row of a command byte (R72, R73): the thirteen rows cover every byte once. -/
def instrOfCommand (cmd : Byte) (f : Frame) : Instr :=
  if cmd = 0x00 then .cmdNone f
  else if cmd = 0x01 then .cmdOpaque01 f
  else if cmd = 0x02 then .cmdInf f
  else if cmd = 0x03 then .cmdSet f
  else if cmd = 0x04 then .cmdAck f
  else if cmd = 0x05 then .cmdNack f
  else if cmd = 0x06 then .cmdGet f
  else if cmd = 0x07 then .cmdRet f
  else if cmd &&& 0xF8 = 0x08 then .cmdOpaque08 (cmd.extractLsb' 0 3) f
  else if cmd &&& 0xF0 = 0x10 then .cmdOpaque10 (cmd.extractLsb' 0 4) f
  else if cmd &&& 0xE0 = 0x20 then .cmdOpaque20 (cmd.extractLsb' 0 5) f
  else if cmd &&& 0xC0 = 0x40 then .cmdOpaque40 (cmd.extractLsb' 0 6) f
  else .cmdOpaque80 (cmd.extractLsb' 0 7) f

/-- The fields of a frame from its bytes (R70), the CRC not yet checked. -/
def frameFields (src dst len f0 f1 f2 f3 : Byte) (payload : List Byte) (hi lo : Byte) : Frame :=
  { src := src.extractLsb' 0 7, dst := dst, len := len, field := f0 ++ f1 ++ f2 ++ f3, payload := payload,
    crc := hi ++ lo }

/-- A frame's last bytes: the payload the length byte announces, then the CRC, which must match (R70, R163). -/
def decodeTail (cmd : Byte) (frameOf : List Byte → Byte → Byte → Frame) (n : Nat) (rest : List Byte) :
    Except DecodeError Instr :=
  match rest.drop n with
  | [hi, lo] =>
    let f := frameOf (rest.take n) hi lo
    if f.crc = crc16 (receivedBody cmd f) then .ok (instrOfCommand cmd f) else .error .badCrc
  | _ => .error .wrongSize

/-- A completed frame (R70, R86): the conditions under which the receiver, fed these bytes from `Start`, delivers. -/
def decodeFrame : List Byte → Except DecodeError Instr
  | start :: src :: dst :: len :: cmd :: f0 :: f1 :: f2 :: f3 :: rest =>
    if start ≠ startByte then .error .notStart
    else if src &&& srcMark = 0 then .error .noSourceMarker
    else if len.toNat < minFrameLen then .error .shortLength
    else decodeTail cmd (frameFields src dst len f0 f1 f2 f3) (len.toNat - minFrameLen) rest
  | _ => .error .wrongSize

/-- A request (R83, R84): the selector fixes which operand it takes. The reserved one takes any. -/
def decodeRequest (op : BitVec 2) (now : Nat) (operand : Operand) : Except DecodeError Instr :=
  match op.toNat, operand with
  | 0, .raw b => .ok (.feed now b)
  | 1, .none => .ok (.tick now)
  | 2, .target point value => .ok (.write now point value)
  | 3, operand => .ok (.reservedOp now operand)
  | _, _ => .error .wrongOperand

/-- A builder selector (R85). -/
def instrOfSelector (sel : BitVec 4) (a : BuildArgs) : Instr :=
  match sel.toNat with
  | 0 => .setU8 a
  | 1 => .infU8 a
  | 2 => .setI8 a
  | 3 => .infI8 a
  | 4 => .setI16 a
  | 5 => .infI16 a
  | 6 => .setI32 a
  | 7 => .infI32 a
  | 8 => .setTemp a
  | 9 => .infTemp a
  | 10 => .setRoomTemp a
  | 11 => .infRoomTemp a
  | _ => .selUnused (sel.extractLsb' 0 2) a

/-- A parser selector, which is the encoding code (R82, R85). -/
def instrOfParser (enc : BitVec 3) (p : List Byte) : Instr :=
  match enc.toNat with
  | 0 => .parseU8 p
  | 1 => .parseI8 p
  | 2 => .parseI16 p
  | 3 => .parseI32 p
  | 4 => .parseTemp p
  | 5 => .parseRoomTemp p
  | 6 => .parseText p
  | _ => .parseUnused7 p

/-- The decoder. -/
def decode : Code → Except DecodeError Instr
  | .req op now operand => decodeRequest op now operand
  | .frame bytes => decodeFrame bytes
  | .builder sel a => .ok (instrOfSelector sel a)
  | .builderGet e src dst field => .ok (.buildGet e src dst field)
  | .parser enc p => .ok (instrOfParser enc p)
  | .crc16 bytes => .ok (.crc16 bytes)
  | .serialize p => .ok (.serialize p)

/-- The bytes of a completed frame with command byte `cmd` (R70), field id in arrival order (R76). -/
def encodeFrame (cmd : Byte) (f : Frame) : List Byte :=
  receivedBody cmd f ++ bytes16 f.crc

/-- The encoder. -/
def encode : Instr → Code
  | .cmdNone f => .frame (encodeFrame 0x00 f)
  | .cmdOpaque01 f => .frame (encodeFrame 0x01 f)
  | .cmdInf f => .frame (encodeFrame 0x02 f)
  | .cmdSet f => .frame (encodeFrame 0x03 f)
  | .cmdAck f => .frame (encodeFrame 0x04 f)
  | .cmdNack f => .frame (encodeFrame 0x05 f)
  | .cmdGet f => .frame (encodeFrame 0x06 f)
  | .cmdRet f => .frame (encodeFrame 0x07 f)
  | .cmdOpaque08 low f => .frame (encodeFrame (opaqueCommand 0x08 low) f)
  | .cmdOpaque10 low f => .frame (encodeFrame (opaqueCommand 0x10 low) f)
  | .cmdOpaque20 low f => .frame (encodeFrame (opaqueCommand 0x20 low) f)
  | .cmdOpaque40 low f => .frame (encodeFrame (opaqueCommand 0x40 low) f)
  | .cmdOpaque80 low f => .frame (encodeFrame (opaqueCommand 0x80 low) f)
  | .feed now raw => .req 0b00 now (.raw raw)
  | .tick now => .req 0b01 now .none
  | .write now point value => .req 0b10 now (.target point value)
  | .reservedOp now operand => .req 0b11 now operand
  | .setU8 a => .builder 0b0000 a
  | .infU8 a => .builder 0b0001 a
  | .setI8 a => .builder 0b0010 a
  | .infI8 a => .builder 0b0011 a
  | .setI16 a => .builder 0b0100 a
  | .infI16 a => .builder 0b0101 a
  | .setI32 a => .builder 0b0110 a
  | .infI32 a => .builder 0b0111 a
  | .setTemp a => .builder 0b1000 a
  | .infTemp a => .builder 0b1001 a
  | .setRoomTemp a => .builder 0b1010 a
  | .infRoomTemp a => .builder 0b1011 a
  | .selUnused low a => .builder (0b11#2 ++ low) a
  | .buildGet e src dst field => .builderGet e src dst field
  | .parseU8 p => .parser 0b000 p
  | .parseI8 p => .parser 0b001 p
  | .parseI16 p => .parser 0b010 p
  | .parseI32 p => .parser 0b011 p
  | .parseTemp p => .parser 0b100 p
  | .parseRoomTemp p => .parser 0b101 p
  | .parseText p => .parser 0b110 p
  | .parseUnused7 p => .parser 0b111 p
  | .crc16 bytes => .crc16 bytes
  | .serialize p => .serialize p

/-- The six formats of the opcode table; the two functions, which no code selects, are told apart by name. -/
inductive Format
  | command
  | request
  | builderSel
  | builderGet
  | parserEnc
  | crcFunction
  | serializeFunction
deriving DecidableEq, Repr

/-- The format an encoded form has. -/
def Code.format : Code → Format
  | .req _ _ _ => .request
  | .frame _ => .command
  | .builder _ _ => .builderSel
  | .builderGet _ _ _ _ => .builderGet
  | .parser _ _ => .parserEnc
  | .crc16 _ => .crcFunction
  | .serialize _ => .serializeFunction

/-- The bits of an encoded form that the table's match and mask speak of; a frame's are its byte 4 (R70). -/
def Code.selector : Code → Byte
  | .req op _ _ => op.zeroExtend 8
  | .frame bytes => bytes.getD 4 0
  | .builder sel _ => sel.zeroExtend 8
  | .builderGet e _ _ _ => e.zeroExtend 8
  | .parser enc _ => enc.zeroExtend 8
  | .crc16 _ => 0
  | .serialize _ => 0

/-- A row of the opcode table: its format, the mask of its fixed bits and their pattern. -/
structure Row where
  format : Format
  mask : Byte
  pattern : Byte
deriving DecidableEq, Repr

/-- The row of an instruction, copied from spec/opcode_table.json. -/
def Instr.row : Instr → Row
  | .cmdNone _ => ⟨.command, 0xFF, 0x00⟩
  | .cmdOpaque01 _ => ⟨.command, 0xFF, 0x01⟩
  | .cmdInf _ => ⟨.command, 0xFF, 0x02⟩
  | .cmdSet _ => ⟨.command, 0xFF, 0x03⟩
  | .cmdAck _ => ⟨.command, 0xFF, 0x04⟩
  | .cmdNack _ => ⟨.command, 0xFF, 0x05⟩
  | .cmdGet _ => ⟨.command, 0xFF, 0x06⟩
  | .cmdRet _ => ⟨.command, 0xFF, 0x07⟩
  | .cmdOpaque08 _ _ => ⟨.command, 0xF8, 0x08⟩
  | .cmdOpaque10 _ _ => ⟨.command, 0xF0, 0x10⟩
  | .cmdOpaque20 _ _ => ⟨.command, 0xE0, 0x20⟩
  | .cmdOpaque40 _ _ => ⟨.command, 0xC0, 0x40⟩
  | .cmdOpaque80 _ _ => ⟨.command, 0x80, 0x80⟩
  | .feed _ _ => ⟨.request, 0b11, 0b00⟩
  | .tick _ => ⟨.request, 0b11, 0b01⟩
  | .write _ _ _ => ⟨.request, 0b11, 0b10⟩
  | .reservedOp _ _ => ⟨.request, 0b11, 0b11⟩
  | .setU8 _ => ⟨.builderSel, 0b1111, 0b0000⟩
  | .infU8 _ => ⟨.builderSel, 0b1111, 0b0001⟩
  | .setI8 _ => ⟨.builderSel, 0b1111, 0b0010⟩
  | .infI8 _ => ⟨.builderSel, 0b1111, 0b0011⟩
  | .setI16 _ => ⟨.builderSel, 0b1111, 0b0100⟩
  | .infI16 _ => ⟨.builderSel, 0b1111, 0b0101⟩
  | .setI32 _ => ⟨.builderSel, 0b1111, 0b0110⟩
  | .infI32 _ => ⟨.builderSel, 0b1111, 0b0111⟩
  | .setTemp _ => ⟨.builderSel, 0b1111, 0b1000⟩
  | .infTemp _ => ⟨.builderSel, 0b1111, 0b1001⟩
  | .setRoomTemp _ => ⟨.builderSel, 0b1111, 0b1010⟩
  | .infRoomTemp _ => ⟨.builderSel, 0b1111, 0b1011⟩
  | .selUnused _ _ => ⟨.builderSel, 0b1100, 0b1100⟩
  | .buildGet _ _ _ _ => ⟨.builderGet, 0, 0⟩
  | .parseU8 _ => ⟨.parserEnc, 0b111, 0b000⟩
  | .parseI8 _ => ⟨.parserEnc, 0b111, 0b001⟩
  | .parseI16 _ => ⟨.parserEnc, 0b111, 0b010⟩
  | .parseI32 _ => ⟨.parserEnc, 0b111, 0b011⟩
  | .parseTemp _ => ⟨.parserEnc, 0b111, 0b100⟩
  | .parseRoomTemp _ => ⟨.parserEnc, 0b111, 0b101⟩
  | .parseText _ => ⟨.parserEnc, 0b111, 0b110⟩
  | .parseUnused7 _ => ⟨.parserEnc, 0b111, 0b111⟩
  | .crc16 _ => ⟨.crcFunction, 0, 0⟩
  | .serialize _ => ⟨.serializeFunction, 0, 0⟩

/-- An encoded form fits a row: the format is the row's and the fixed bits agree. -/
def Row.fits (r : Row) (c : Code) : Bool :=
  c.format == r.format && c.selector &&& r.mask == r.pattern

/-- Two rows share no encoded form: their formats differ, or their patterns differ on a bit that both fix. -/
def Row.disjoint (r t : Row) : Bool :=
  r.format != t.format || r.pattern &&& t.mask &&& r.mask != t.pattern &&& r.mask &&& t.mask

/-- The frame with command byte `cmd` whose other operand bits are zero: source and destination 0, field id 0, no payload. -/
def zeroFrame (cmd : Byte) : List Byte :=
  let body := frameBody 0 0 11 cmd (bytes32 0) []
  body ++ bytes16 (crc16 body)

/-- A request with its operands zero. -/
def zeroRequest (op : BitVec 2) : Code :=
  match op.toNat with
  | 0 => .req op 0 (.raw 0)
  | 2 => .req op 0 (.target 0 0)
  | _ => .req op 0 .none

/-- The encoded form of a table word with every operand the table gives no bits at zero (log 8). The table numbers six
formats from 0 each, so a word names its format by its width: 2 bits a request, 3 a parser, 4 a builder. At a whole
byte, where the table's rows overlap, a word that fits the request selector is a request, any other a command byte. -/
def tableCode (nbits w : Nat) : Option Code :=
  if nbits = 2 ∧ w < 4 then some (zeroRequest (BitVec.ofNat 2 w))
  else if nbits = 3 ∧ w < 8 then some (.parser (BitVec.ofNat 3 w) [])
  else if nbits = 4 ∧ w < 16 then some (.builder (BitVec.ofNat 4 w) ⟨0, 0, 0, 0, 0⟩)
  else if nbits = 8 ∧ w < 4 then some (zeroRequest (BitVec.ofNat 2 w))
  else if nbits = 8 ∧ w < 256 then some (.frame (zeroFrame (BitVec.ofNat 8 w)))
  else none

/-- The instruction the decoder reads from a table word. -/
def decodeTableWord (nbits w : Nat) : Option Instr :=
  match tableCode nbits w with
  | some c =>
    match decode c with
    | .ok i => some i
    | .error _ => none
  | none => none

end Sys2Proof
end

