-- ==== Sys2Proof/Machine/State.lean ====
section
/-! DEFINITION. The state of the block as plain data (10_state.md), its events (60_exceptions.md R227), its stops, and
the state after reset (70_reset_and_hazards.md R250, R251). -/

namespace Sys2Proof.Machine

/-- The receiver's sequencer `S.rx_state` (R21): each state names the byte expected next. -/
inductive RxState
  | start
  | sourceAddr
  | destAddr
  | length
  | command
  | field0
  | field1
  | field2
  | field3
  | payload
  | crc0
  | crc1
deriving DecidableEq, Repr

/-- The receiver registers (R21 to R28). -/
structure Receiver where
  state : RxState
  buf : List Byte
  src : BusAddr
  dst : Byte
  len : Byte
  cmd : Byte
  field : FieldId
  crc : Crc
deriving DecidableEq, Repr

/-- The receiver registers after reset (R250). -/
def Receiver.reset : Receiver :=
  { state := .start, buf := [], src := 0, dst := 0, len := 0, cmd := 0, field := 0, crc := 0 }

/-- Point `i` of the point table, `P[i]` of R10: its static configuration (R30), which no request writes, and its
dynamic scheduling state `S.pt[i]` (R31). -/
structure Point where
  conf : PointConf
  dirty : Bool
  target : Option Rat
  nextUpdate : Nat
  getCount : Nat
  setCount : Nat
deriving DecidableEq, Repr

/-- A point after reset (R31, R250). -/
def Point.reset (conf : PointConf) : Point :=
  { conf := conf, dirty := false, target := none, nextUpdate := 0, getCount := 0, setCount := 0 }

/-- The codes of the sticky fault register `S.fault` (R34, R223). -/
inductive FaultCode
  /-- `F_CONFIG`: an ill-formed configuration, found at reset (R33, R251). -/
  | config
  /-- `F_OP`: a request with the reserved selector (R84). -/
  | op
  /-- `F_TIME`: a request whose `now` is below `S.last_now` (R229). -/
  | time
  /-- `F_WRITE`: a WRITE to a missing or ReadOnly point (R195). -/
  | write
  /-- `F_VALUE`: a WRITE of a value outside the encoding's domain (R195). -/
  | value
deriving DecidableEq, Repr

/-- The output events (R227). -/
inductive Event
  /-- The line bytes of one frame, already inverted (R191). -/
  | tx (bytes : List Byte)
  /-- A decoded valid frame (R164). -/
  | packet (p : Packet)
  /-- A point's new value, with the shape flag (R192). -/
  | value (point : Nat) (v : Value) (shapeOk : Bool)
deriving DecidableEq, Repr

/-- What a builder, a parser or a function returns (log 5). -/
inductive Answer
  /-- A builder's packet (R130 to R145). -/
  | packet (p : Packet)
  /-- `NoPacket`, of the unicast RoomTemperature builder (R144). -/
  | noPacket
  /-- A parser's pair `(value, shape_ok)` (R113 to R119). -/
  | parsed (v : Value) (shapeOk : Bool)
  /-- A CRC (R100). -/
  | crc (c : Crc)
  /-- The serializer's bytes, and the packet with its length and CRC filled (R111). -/
  | frame (p : Packet) (bytes : List Byte)
deriving DecidableEq, Repr

/-- The state. `rx`, `points`, `fault` and `lastNow` are the spec's `S` (R20); `cfg` and each point's `conf` are its
configuration `C` (log 1); `out`, `ret` and `pending` are the model's own host interface (logs 3, 4, 5). -/
structure State where
  rx : Receiver
  points : List Point
  fault : Option FaultCode
  lastNow : Nat
  cfg : BlockConf
  out : List Event
  ret : Option Answer
  pending : List Input
deriving DecidableEq, Repr

/-- Why the machine stops with a fault. (The sticky faults of R223 are no stop: they are next states.) -/
inductive Fault
  /-- Raised by TICK when the point it is to send holds no target, which R183 says never happens (log 12). Safe: no
  run from a reset reaches such a state, and nothing is claimed of it. -/
  | noTarget
deriving DecidableEq, Repr

/-- Why the machine refuses an operation. -/
inductive Refusal
  /-- Raised by `exec`'s arm of an instruction without a meaning. Safe: nothing is claimed of it. -/
  | notModelled (mnemonic : String)
  /-- Raised by `step` on an encoded form that is no instruction (log 14), on a faulted block too (log 22). Safe: the
  machine stops. -/
  | undecodable (why : DecodeError)
  /-- Raised by SEL_UNUSED, and by TICK for a point whose selector is one of its codes: R85 says they cannot occur and
  R146 that no such builder exists (log 13). Safe: the machine stops. -/
  | unusedSelector
  /-- Raised by PARSE_UNUSED_7: code 7 is unused (R82, log 13). Safe: the machine stops. -/
  | unusedParser
deriving DecidableEq, Repr

/-- The state after reset under a configuration (R250, R251): every point as registered, the fault register F_CONFIG if
the configuration is ill formed, no event, nothing pending. -/
def State.resetWith (c : Configuration) : State :=
  { rx := Receiver.reset
    points := c.points.map Point.reset
    fault := if configOk c then none else some .config
    lastNow := 0
    cfg := c.block
    out := []
    ret := none
    pending := [] }

/-- The configuration the model's reset state holds before a host fixes one: no points, all numbers zero (log 2). -/
def emptyConfiguration : Configuration :=
  { block := { srcAddr := 0, dstAddr := 0, postSetPollInterval := 0, maxPoints := 0 }, points := [] }

/-- The machine right after reset (R250), under the empty configuration (log 2). -/
def State.reset : State := State.resetWith emptyConfiguration

end Sys2Proof.Machine
end

