-- ==== Sys2Proof/Machine/Flags.lean ====
section
/-! DEFINITION. The flags, counters and timestamps of one point: readiness and re-arm (44_scheduler.md R181, R182), and
what a send, an answer, an acknowledgement and a write do to them (R184 to R195). -/

namespace Sys2Proof.Machine

/-- The numeric code of a receiver state (10_state.md R21). -/
def RxState.code : RxState → BitVec 4
  | .start => 0
  | .sourceAddr => 1
  | .destAddr => 2
  | .length => 3
  | .command => 4
  | .field0 => 5
  | .field1 => 6
  | .field2 => 7
  | .field3 => 8
  | .payload => 9
  | .crc0 => 10
  | .crc1 => 11

/-- The point is write-capable: its index is in the list `W` of 44_scheduler.md. -/
def Point.isWritable (p : Point) : Bool := p.conf.kind == .writable

/-- The point is a sensor: its index is in the list `R` of 44_scheduler.md. -/
def Point.isReadOnly (p : Point) : Bool := p.conf.kind == .readOnly

/-- The side effect of `ready_to_set`: an exhausted set counter is cleared once the back-off is over (R181). -/
def Point.rearmSet (now : Nat) (p : Point) : Point :=
  if maxRetries ≤ p.setCount ∧ p.nextUpdate + p.conf.retryInterval ≤ now then { p with setCount := 0 } else p

/-- What `ready_to_set` returns, once its re-arm is done (R181). -/
def Point.readyToSet (p : Point) : Bool :=
  decide (p.setCount < maxRetries) && p.dirty

/-- The side effect of `ready_to_update`: an exhausted get counter is cleared once the back-off is over (R182). -/
def Point.rearmGet (now : Nat) (p : Point) : Point :=
  if maxRetries ≤ p.getCount ∧ p.nextUpdate + p.conf.retryInterval ≤ now then { p with getCount := 0 } else p

/-- What `ready_to_update` returns, once its re-arm is done (R182). -/
def Point.readyToUpdate (now : Nat) (p : Point) : Bool :=
  decide (p.getCount < maxRetries) && decide (p.nextUpdate ≤ now)

/-- The bookkeeping of a unicast Set, sent or silent (R184, R186). -/
def Point.sentUnicast (now interval : Nat) (p : Point) : Point :=
  { p with setCount := p.setCount + 1, nextUpdate := now + interval }

/-- The bookkeeping of a broadcast Info: treated as completed (R185). -/
def Point.sentBroadcast (p : Point) : Point :=
  { p with dirty := false, setCount := 0 }

/-- The bookkeeping of a Get (R189). -/
def Point.sentGet (p : Point) : Point :=
  { p with getCount := p.getCount + 1 }

/-- The bookkeeping of a received Info or Ret (R192). -/
def Point.answered (now : Nat) (p : Point) : Point :=
  { p with getCount := 0, nextUpdate := now + p.conf.updateInterval }

/-- The bookkeeping of a received Ack or Nack: the write is committed (R193). -/
def Point.acknowledged (p : Point) : Point :=
  { p with dirty := false, setCount := 0 }

/-- A new pending write (R195). -/
def Point.written (v : Rat) (p : Point) : Point :=
  { p with target := some v, dirty := true }

end Sys2Proof.Machine
end

