-- ==== Sys2Proof/Machine/Ops.lean ====
section
/-! DEFINITION. The named operations over the state: its updates, raising a fault (00_scope.md R10, 60_exceptions.md R223),
the checks every request begins with (R225, R229), the arbiter's scan (44_scheduler.md R180), transmission (R191), and the
dispatch of a decoded packet (43_receiver.md R164, 44_scheduler.md R192 to R194). -/

namespace Sys2Proof.Machine

/-- Write the receiver registers. -/
def State.setRx (s : State) (rx : Receiver) : State := { s with rx := rx }

/-- Write the point table's dynamic state. -/
def State.setPoints (s : State) (points : List Point) : State := { s with points := points }

/-- Write `S.last_now` (R35). -/
def State.setLastNow (s : State) (now : Nat) : State := { s with lastNow := now }

/-- Leave a function's return value on the answer port (log 5). -/
def State.answer (s : State) (a : Answer) : State := { s with ret := some a }

/-- `emit E` (R10): append events to the output of the request. -/
def State.emit (s : State) (events : List Event) : State := { s with out := s.out ++ events }

/-- Take the next input off the queue: what remains is pending, and its output sequence begins empty (logs 3, 4). -/
def State.begin (s : State) (rest : List Input) : State := { s with pending := rest, out := [] }

/-- The inputs still pending, kept across a reset (log 9). -/
def State.setPending (s : State) (rest : List Input) : State := { s with pending := rest }

/-- `raise Fault(r)`: the sticky fault register is set and nothing else changes (R10, R223). This is the block's whole
exception entry: no status is saved and no control is redirected (R226). -/
def State.raise (s : State) (r : FaultCode) : State := { s with fault := some r }

/-- The outcomes of the machine. -/
abbrev Result := Host.Outcome State Fault Refusal

/-- What a request does unless the block has faulted: then it is ignored (R225). -/
def State.unlessFaulted (s : State) (body : Result) : Result :=
  match s.fault with
  | some _ => .next s
  | none => body

/-- The checks FEED, TICK and WRITE begin with: ignored once faulted (R225), F_TIME if the clock went backwards (R229). -/
def State.checked (s : State) (now : Nat) (body : Result) : Result :=
  s.unlessFaulted (if now < s.lastNow then .next (s.raise .time) else body)

/-- What a scan of the point table finds: the first ready point with the points before and after it, or none. The points
the scan reached have been re-armed. -/
inductive Scan
  | found (before : List Point) (p : Point) (after : List Point)
  | missed (points : List Point)
deriving DecidableEq, Repr

/-- Put a point before what a scan of the rest found. -/
def Scan.push (p : Point) : Scan → Scan
  | .found before q after => .found (p :: before) q after
  | .missed points => .missed (p :: points)

/-- The scan of one arbiter step (R180): over the points of its kind in registration order, evaluate the predicate (its
re-arm first) until one is ready. The predicate is not evaluated beyond that point. -/
def scan (ofKind : Point → Bool) (rearm : Point → Point) (ready : Point → Bool) : List Point → Scan
  | [] => .missed []
  | p :: rest =>
    if ofKind p then
      if ready (rearm p) then .found [] (rearm p) rest
      else (scan ofKind rearm ready rest).push (rearm p)
    else (scan ofKind rearm ready rest).push p

/-- The line bytes of a packet's frame (R191): serialized, then inverted once. -/
def lineFrame (p : Packet) : List Byte := (serializeBytes p).map invertByte

/-- `transmit(pkt)` (R191). -/
def State.transmit (s : State) (p : Packet) : State := s.emit [.tx (lineFrame p)]

/-- A point's field id matches a packet's (R192, R193). -/
def Point.matchesField (field : FieldId) (p : Point) : Bool := p.conf.fieldId == field

/-- The ValueEvents of an Info or Ret, one per matching point in index order, counting from `i` (R192, R196). -/
def valueEvents (pkt : Packet) : Nat → List Point → List Event
  | _, [] => []
  | i, p :: rest =>
    if p.matchesField pkt.field then
      .value i (decodeValue p.conf.encoding pkt.payload).1 (decodeValue p.conf.encoding pkt.payload).2
        :: valueEvents pkt (i + 1) rest
    else valueEvents pkt (i + 1) rest

/-- The point effects of an Info or Ret (R192). -/
def State.updateMatching (s : State) (pkt : Packet) (now : Nat) : State :=
  (s.setPoints (s.points.map fun p => if p.matchesField pkt.field then p.answered now else p)).emit
    (valueEvents pkt 0 s.points)

/-- The point effects of an Ack or Nack (R193). -/
def State.commitMatching (s : State) (pkt : Packet) : State :=
  s.setPoints (s.points.map fun p => if p.isWritable && p.matchesField pkt.field then p.acknowledged else p)

/-- `dispatch(pkt, now)`: the point effects of a frame by its command byte (R192, R193, R194). -/
def State.dispatch (s : State) (pkt : Packet) (now : Nat) : State :=
  if pkt.cmd = cmdInfo ∨ pkt.cmd = cmdRetCode then s.updateMatching pkt now
  else if pkt.cmd = cmdAckCode ∨ pkt.cmd = cmdNackCode then s.commitMatching pkt
  else s

/-- `deliver(now)` (R164): the PacketEvent, then the dispatch. -/
def State.deliver (s : State) (pkt : Packet) (now : Nat) : State :=
  (s.emit [.packet pkt]).dispatch pkt now

/-- What a frame row does when its frame completes (R164): deliver it at the time of the FEED that completed it, which is
`S.last_now` (log 7). A faulted block does nothing (R225). -/
def deliverFrame (cmd : Byte) (f : Frame) (s : State) : Result :=
  s.unlessFaulted (.next (s.deliver (f.toPacket cmd) s.lastNow))

end Sys2Proof.Machine
end

