-- ==== Sys2Proof/Machine/Commands.lean ====
section
/-! DEFINITION. The meanings of the frame rows, one per command byte or range of opaque tags (30_encoding.md R72, R73;
44_scheduler.md R192 to R194). FEED reaches the same operation when it completes a valid frame. -/

namespace Sys2Proof.Machine

/-- CMD_NONE: PacketEvent only (R194). -/
def execCmdNone (f : Frame) (s : State) : Result := deliverFrame 0x00 f s

/-- CMD_OPAQUE_01: PacketEvent only (R167, R194). -/
def execCmdOpaque01 (f : Frame) (s : State) : Result := deliverFrame 0x01 f s

/-- CMD_INF: PacketEvent, then every matching point is updated and its value published (R192). -/
def execCmdInf (f : Frame) (s : State) : Result := deliverFrame 0x02 f s

/-- CMD_SET: PacketEvent only (R194). -/
def execCmdSet (f : Frame) (s : State) : Result := deliverFrame 0x03 f s

/-- CMD_ACK: PacketEvent, then every matching Writable point's write is committed (R193). -/
def execCmdAck (f : Frame) (s : State) : Result := deliverFrame 0x04 f s

/-- CMD_NACK: exactly as an Ack (R193). -/
def execCmdNack (f : Frame) (s : State) : Result := deliverFrame 0x05 f s

/-- CMD_GET: PacketEvent only (R194). -/
def execCmdGet (f : Frame) (s : State) : Result := deliverFrame 0x06 f s

/-- CMD_RET: PacketEvent, then every matching point is updated and its value published (R192). -/
def execCmdRet (f : Frame) (s : State) : Result := deliverFrame 0x07 f s

/-- CMD_OPAQUE_08, tags 0x08 to 0x0F: PacketEvent only (R167, R194). -/
def execCmdOpaque08 (low : BitVec 3) (f : Frame) (s : State) : Result := deliverFrame (opaqueCommand 0x08 low) f s

/-- CMD_OPAQUE_10, tags 0x10 to 0x1F: PacketEvent only (R167, R194). -/
def execCmdOpaque10 (low : BitVec 4) (f : Frame) (s : State) : Result := deliverFrame (opaqueCommand 0x10 low) f s

/-- CMD_OPAQUE_20, tags 0x20 to 0x3F: PacketEvent only (R167, R194). -/
def execCmdOpaque20 (low : BitVec 5) (f : Frame) (s : State) : Result := deliverFrame (opaqueCommand 0x20 low) f s

/-- CMD_OPAQUE_40, tags 0x40 to 0x7F: PacketEvent only (R167, R194). -/
def execCmdOpaque40 (low : BitVec 6) (f : Frame) (s : State) : Result := deliverFrame (opaqueCommand 0x40 low) f s

/-- CMD_OPAQUE_80, tags 0x80 to 0xFF: PacketEvent only (R167, R194). -/
def execCmdOpaque80 (low : BitVec 7) (f : Frame) (s : State) : Result := deliverFrame (opaqueCommand 0x80 low) f s

end Sys2Proof.Machine
end

