-- ==== Sys2Proof/Machine/Functions.lean ====
section
/-! DEFINITION. The meanings of the function rows: the CRC calculator (40_crc.md R100) and the serializer
(41_packet_model.md R111), their results left on the answer port.

DESIGN CHOICE (log 21): a function presented on its own runs on a faulted block too; R225 speaks of requests only. -/

namespace Sys2Proof.Machine

/-- CRC16 (R100), on a faulted block too (log 21). -/
def execCrc16 (bytes : List Byte) (s : State) : Result := .next (s.answer (.crc (crc16 bytes)))

/-- SERIALIZE (R111): the frame's bytes, and the packet with its length and CRC; on a faulted block too (log 21). -/
def execSerialize (p : Packet) (s : State) : Result := .next (s.answer (.frame (fillPacket p) (serializeBytes p)))

end Sys2Proof.Machine
end

