-- ==== Sys2Proof/Machine/Parsers.lean ====
section
/-! DEFINITION. The meanings of the parser rows (41_packet_model.md R113 to R121): the pair `(value, shape_ok)` is left on
the answer port. FEED publishes what the same functions return.

DESIGN CHOICE (log 21): a parser row presented on its own runs on a faulted block too; R225 speaks of requests only. -/

namespace Sys2Proof.Machine

/-- A parse by an encoding (R120), its pair on the answer port, on a faulted block too (log 21). -/
def parseAnswer (enc : Encoding) (p : List Byte) (s : State) : Result :=
  .next (s.answer (.parsed (decodeValue enc p).1 (decodeValue enc p).2))

/-- PARSE_U8 (R113). -/
def execParseU8 (p : List Byte) (s : State) : Result := parseAnswer .uint8 p s

/-- PARSE_I8 (R114). -/
def execParseI8 (p : List Byte) (s : State) : Result := parseAnswer .int8 p s

/-- PARSE_I16 (R115). -/
def execParseI16 (p : List Byte) (s : State) : Result := parseAnswer .int16 p s

/-- PARSE_I32 (R117). -/
def execParseI32 (p : List Byte) (s : State) : Result := parseAnswer .int32 p s

/-- PARSE_TEMP (R116). -/
def execParseTemp (p : List Byte) (s : State) : Result := parseAnswer .temperature p s

/-- PARSE_ROOMTEMP (R119). -/
def execParseRoomTemp (p : List Byte) (s : State) : Result := parseAnswer .roomTemperature p s

/-- PARSE_TEXT (R118). -/
def execParseText (p : List Byte) (s : State) : Result := parseAnswer .text p s

/-- PARSE_UNUSED_7: code 7 is unused and has no parser (30_encoding.md R82), on a faulted block too (log 21). -/
def execParseUnused7 (_p : List Byte) (_s : State) : Result := .refused .unusedParser

end Sys2Proof.Machine
end

