-- ==== Sys2Proof/Machine/Receive.lean ====
section
/-! DEFINITION. The frame receiver (43_receiver.md): one rule per state, and the FEED request. -/

namespace Sys2Proof.Machine

/-- Take a byte into the frame buffer and go on (R153 to R161). -/
def Receiver.take (r : Receiver) (b : Byte) (next : RxState) : Receiver :=
  { r with buf := r.buf ++ [b], state := next }

/-- Back to `Start` with an empty buffer (R152, R162, R166). -/
def Receiver.resync (r : Receiver) : Receiver := { r with buf := [], state := .start }

/-- State `Start` (R151). -/
def Receiver.onStart (r : Receiver) (b : Byte) : Receiver :=
  if b = startByte then { r with buf := [b], state := .sourceAddr } else r.resync

/-- State `SourceAddr` (R152). -/
def Receiver.onSourceAddr (r : Receiver) (b : Byte) : Receiver :=
  if b &&& srcMark = 0 then r.resync else { r.take b .destAddr with src := b.extractLsb' 0 7 }

/-- State `DestAddr` (R153). -/
def Receiver.onDestAddr (r : Receiver) (b : Byte) : Receiver := { r.take b .length with dst := b }

/-- State `Length` (R154). -/
def Receiver.onLength (r : Receiver) (b : Byte) : Receiver := { r.take b .command with len := b }

/-- State `Command` (R155). -/
def Receiver.onCommand (r : Receiver) (b : Byte) : Receiver := { r.take b .field0 with cmd := b, field := 0 }

/-- States `Field0` to `Field2` (R156 to R158). -/
def Receiver.onField (r : Receiver) (b : Byte) (next : RxState) : Receiver :=
  { r.take b next with field := fieldPush r.field b }

/-- State `Field3` (R159). -/
def Receiver.onField3 (r : Receiver) (b : Byte) : Receiver :=
  r.onField b (if minFrameLen < r.len.toNat then .payload else .crc0)

/-- State `Payload` (R160). -/
def Receiver.onPayload (r : Receiver) (b : Byte) : Receiver :=
  r.take b (if r.buf.length + 1 + 2 = r.len.toNat then .crc0 else .payload)

/-- State `Crc0` (R161). -/
def Receiver.onCrc0 (r : Receiver) (b : Byte) : Receiver :=
  { r.take b .crc1 with crc := b.zeroExtend 16 <<< 8 }

/-- The registers in state `Crc1` once the last byte is taken, before the checks (R162). -/
def Receiver.onCrc1 (r : Receiver) (b : Byte) : Receiver :=
  { r.take b .crc1 with crc := r.crc ||| b.zeroExtend 16 }

/-- `valid(c)` over the buffered frame less its last two bytes (R162, R163). -/
def Receiver.valid (r : Receiver) : Bool :=
  crc16 (r.buf.take (r.buf.length - 2)) == r.crc && decide (minFrameLen ≤ r.len.toNat)

/-- The frame the registers hold (R164): the payload is `S.rx_buf[9 .. S.rx_len - 2]`. -/
def Receiver.frame (r : Receiver) : Frame :=
  { src := r.src, dst := r.dst, len := r.len, field := r.field,
    payload := (r.buf.take (r.len.toNat - 2)).drop 9, crc := r.crc }

/-- Frame completion (R162 to R164): deliver a valid frame, and return to `Start` in every case. -/
def State.completeFrame (s : State) (r : Receiver) (now : Nat) : State :=
  if r.valid then ((s.setRx r).deliver (r.frame.toPacket r.cmd) now).setRx r.resync else s.setRx r.resync

/-- `rx_step(b, now)`: the state rule that `S.rx_state` selects (R151 to R162). -/
def State.rxStep (s : State) (b : Byte) (now : Nat) : State :=
  match s.rx.state with
  | .start => s.setRx (s.rx.onStart b)
  | .sourceAddr => s.setRx (s.rx.onSourceAddr b)
  | .destAddr => s.setRx (s.rx.onDestAddr b)
  | .length => s.setRx (s.rx.onLength b)
  | .command => s.setRx (s.rx.onCommand b)
  | .field0 => s.setRx (s.rx.onField b .field1)
  | .field1 => s.setRx (s.rx.onField b .field2)
  | .field2 => s.setRx (s.rx.onField b .field3)
  | .field3 => s.setRx (s.rx.onField3 b)
  | .payload => s.setRx (s.rx.onPayload b)
  | .crc0 => s.setRx (s.rx.onCrc0 b)
  | .crc1 => s.completeFrame (s.rx.onCrc1 b) now

/-- FEED (R150): the checks, the one inversion on receive, one receiver step. -/
def execFeed (now : Nat) (raw : Byte) (s : State) : Result :=
  s.checked now (.next ((s.setLastNow now).rxStep (invertByte raw) now))

end Sys2Proof.Machine
end

