-- ==== Sys2Proof/Machine/Builders.lean ====
section
/-! DEFINITION. The packet builders (42_builders.md R130 to R146): pure functions that return a packet, and the meanings
of their rows, which leave it on the answer port. TICK sends what the same functions return.

DESIGN CHOICE (log 21): a builder row presented on its own runs on a faulted block too; R225 speaks of requests only. -/

namespace Sys2Proof.Machine

/-- `build_get` (R130). -/
def buildGetPacket (src : BusAddr) (dst : Byte) (field : FieldId) : Packet :=
  fillPacket { cmd := cmdGetCode, src := src, dst := dst, len := 0, field := field, payload := [], crc := 0 }

/-- The header of a unicast Set: command Set, to the addressed controller (R131). -/
def setPacket (a : BuildArgs) (payload : List Byte) : Packet :=
  fillPacket { cmd := cmdSetCode, src := a.src, dst := a.dst, len := 0, field := a.field, payload := payload, crc := 0 }

/-- The header of a broadcast Info: command Info, to 0x7F whatever the destination operand is (R131). -/
def infoPacket (a : BuildArgs) (payload : List Byte) : Packet :=
  fillPacket { cmd := cmdInfo, src := a.src, dst := broadcastDst, len := 0, field := a.field, payload := payload, crc := 0 }

/-- The payload of every Set and Info but the RoomTemperature one: the qualifier, then the value bytes (R79, R81). -/
def qualifiedPayload (enc : Encoding) (a : BuildArgs) : List Byte :=
  qualifier a.enableByte a.value :: valueBytes enc a.value

/-- SET_U8 (R134). -/
def buildSetU8 (a : BuildArgs) : Packet := setPacket a (qualifiedPayload .uint8 a)

/-- INF_U8 (R135). -/
def buildInfU8 (a : BuildArgs) : Packet := infoPacket a (qualifiedPayload .uint8 a)

/-- SET_I8 (R136). -/
def buildSetI8 (a : BuildArgs) : Packet := setPacket a (qualifiedPayload .int8 a)

/-- INF_I8 (R137). -/
def buildInfI8 (a : BuildArgs) : Packet := infoPacket a (qualifiedPayload .int8 a)

/-- SET_I16 (R138). -/
def buildSetI16 (a : BuildArgs) : Packet := setPacket a (qualifiedPayload .int16 a)

/-- INF_I16 (R139). -/
def buildInfI16 (a : BuildArgs) : Packet := infoPacket a (qualifiedPayload .int16 a)

/-- SET_I32 (R140). -/
def buildSetI32 (a : BuildArgs) : Packet := setPacket a (qualifiedPayload .int32 a)

/-- INF_I32 (R141). -/
def buildInfI32 (a : BuildArgs) : Packet := infoPacket a (qualifiedPayload .int32 a)

/-- SET_TEMP (R142). -/
def buildSetTemp (a : BuildArgs) : Packet := setPacket a (qualifiedPayload .temperature a)

/-- INF_TEMP (R143). -/
def buildInfTemp (a : BuildArgs) : Packet := infoPacket a (qualifiedPayload .temperature a)

/-- INF_ROOMTEMP: the two value bytes and 0x00, no qualifier (R145). -/
def buildInfRoomTemp (a : BuildArgs) : Packet := infoPacket a (valueBytes .roomTemperature a.value ++ [0x00])

/-- What a builder selector yields. -/
inductive Built
  | packet (p : Packet)
  | noPacket
  | unused
deriving DecidableEq, Repr

/-- The builder variant a selector names (30_encoding.md R85). -/
def build (sel : BitVec 4) (a : BuildArgs) : Built :=
  match sel.toNat with
  | 0 => .packet (buildSetU8 a)
  | 1 => .packet (buildInfU8 a)
  | 2 => .packet (buildSetI8 a)
  | 3 => .packet (buildInfI8 a)
  | 4 => .packet (buildSetI16 a)
  | 5 => .packet (buildInfI16 a)
  | 6 => .packet (buildSetI32 a)
  | 7 => .packet (buildInfI32 a)
  | 8 => .packet (buildSetTemp a)
  | 9 => .packet (buildInfTemp a)
  | 10 => .noPacket
  | 11 => .packet (buildInfRoomTemp a)
  | _ => .unused

/-- The selector of a point: `(enc_code << 1) | is_broadcast` (R85). -/
def builderSelector (conf : PointConf) : BitVec 4 :=
  ((encodingCode conf.encoding).zeroExtend 4 <<< 1) ||| (BitVec.ofBool conf.isBroadcast).zeroExtend 4

/-- SET_U8 (R134), on a faulted block too (log 21). -/
def execSetU8 (a : BuildArgs) (s : State) : Result := .next (s.answer (.packet (buildSetU8 a)))

/-- INF_U8 (R135), on a faulted block too (log 21). -/
def execInfU8 (a : BuildArgs) (s : State) : Result := .next (s.answer (.packet (buildInfU8 a)))

/-- SET_I8 (R136), on a faulted block too (log 21). -/
def execSetI8 (a : BuildArgs) (s : State) : Result := .next (s.answer (.packet (buildSetI8 a)))

/-- INF_I8 (R137), on a faulted block too (log 21). -/
def execInfI8 (a : BuildArgs) (s : State) : Result := .next (s.answer (.packet (buildInfI8 a)))

/-- SET_I16 (R138), on a faulted block too (log 21). -/
def execSetI16 (a : BuildArgs) (s : State) : Result := .next (s.answer (.packet (buildSetI16 a)))

/-- INF_I16 (R139), on a faulted block too (log 21). -/
def execInfI16 (a : BuildArgs) (s : State) : Result := .next (s.answer (.packet (buildInfI16 a)))

/-- SET_I32 (R140), on a faulted block too (log 21). -/
def execSetI32 (a : BuildArgs) (s : State) : Result := .next (s.answer (.packet (buildSetI32 a)))

/-- INF_I32 (R141), on a faulted block too (log 21). -/
def execInfI32 (a : BuildArgs) (s : State) : Result := .next (s.answer (.packet (buildInfI32 a)))

/-- SET_TEMP (R142), on a faulted block too (log 21). -/
def execSetTemp (a : BuildArgs) (s : State) : Result := .next (s.answer (.packet (buildSetTemp a)))

/-- INF_TEMP (R143), on a faulted block too (log 21). -/
def execInfTemp (a : BuildArgs) (s : State) : Result := .next (s.answer (.packet (buildInfTemp a)))

/-- SET_ROOMTEMP: builds nothing (R144), on a faulted block too (log 21). -/
def execSetRoomTemp (_a : BuildArgs) (s : State) : Result := .next (s.answer .noPacket)

/-- INF_ROOMTEMP (R145), on a faulted block too (log 21). -/
def execInfRoomTemp (a : BuildArgs) (s : State) : Result := .next (s.answer (.packet (buildInfRoomTemp a)))

/-- SEL_UNUSED: selectors 11xx cannot occur and have no builder (R85, R146), on a faulted block too (log 21). -/
def execSelUnused (_low : BitVec 2) (_a : BuildArgs) (_s : State) : Result := .refused .unusedSelector

/-- BUILD_GET: the same frame for every encoding, the three bits ignored (R130); on a faulted block too (log 21). -/
def execBuildGet (_e : BitVec 3) (src : BusAddr) (dst : Byte) (field : FieldId) (s : State) : Result :=
  .next (s.answer (.packet (buildGetPacket src dst field)))

end Sys2Proof.Machine
end

