-- ==== Sys2Proof/Machine/Schedule.lean ====
section
/-! DEFINITION. The point scheduler's TICK (44_scheduler.md R180 to R191), WRITE (R195), and the reserved request
(30_encoding.md R84). -/

namespace Sys2Proof.Machine

/-- The block's own address as builders take it (10_state.md R32). -/
def State.srcAddr (s : State) : BusAddr := BitVec.ofNat 7 s.cfg.srcAddr

/-- The addressed controller as builders take it (R32). -/
def State.dstAddr (s : State) : Byte := BitVec.ofNat 8 s.cfg.dstAddr

/-- The operands of a point's builder for the value `v` (42_builders.md, section 2). -/
def State.buildArgs (s : State) (p : Point) (v : Rat) : BuildArgs :=
  { src := s.srcAddr, dst := s.dstAddr, field := p.conf.fieldId, value := v,
    enableByte := BitVec.ofNat 8 p.conf.enableByte }

/-- The bookkeeping of a sent write, by the point's broadcast flag (R184, R185, R186). -/
def Point.sentWrite (now interval : Nat) (p : Point) : Point :=
  if p.conf.isBroadcast then p.sentBroadcast else p.sentUnicast now interval

/-- `do_set` for the point a scan found (R183 to R186): build, transmit unless there is no packet, keep the books. -/
def State.sendWrite (s : State) (now : Nat) (before : List Point) (p : Point) (after : List Point) : Result :=
  let booked := s.setPoints (before ++ p.sentWrite now s.cfg.postSetPollInterval :: after)
  match p.target with
  | none => .fault .noTarget
  | some v =>
    match build (builderSelector p.conf) (s.buildArgs p v) with
    | .packet pkt => .next (booked.transmit pkt)
    | .noPacket => .next booked
    | .unused => .refused .unusedSelector

/-- `do_get` for the point a scan found (R189). -/
def State.sendGet (s : State) (before : List Point) (p : Point) (after : List Point) : State :=
  (s.setPoints (before ++ p.sentGet :: after)).transmit (buildGetPacket s.srcAddr s.dstAddr p.conf.fieldId)

/-- Step 1's scan: writes (R183). -/
def scanWrites (now : Nat) (points : List Point) : Scan :=
  scan Point.isWritable (Point.rearmSet now) Point.readyToSet points

/-- Step 2's scan: polls of write-capable points (R187). -/
def scanWritablePolls (now : Nat) (points : List Point) : Scan :=
  scan Point.isWritable (Point.rearmGet now) (Point.readyToUpdate now) points

/-- Step 3's scan: polls of sensors (R188). -/
def scanSensorPolls (now : Nat) (points : List Point) : Scan :=
  scan Point.isReadOnly (Point.rearmGet now) (Point.readyToUpdate now) points

/-- The arbiter's three steps, first match wins (R180); if none matches only the re-arms remain (R190). -/
def State.arbitrate (s : State) (now : Nat) : Result :=
  match scanWrites now s.points with
  | .found before p after => s.sendWrite now before p after
  | .missed points1 =>
    match scanWritablePolls now points1 with
    | .found before p after => .next (s.sendGet before p after)
    | .missed points2 =>
      match scanSensorPolls now points2 with
      | .found before p after => .next (s.sendGet before p after)
      | .missed points3 => .next (s.setPoints points3)

/-- TICK (R180). -/
def execTick (now : Nat) (s : State) : Result :=
  s.checked now ((s.setLastNow now).arbitrate now)

/-- WRITE (R195): the checks in the order of 60_exceptions.md R224, then the target and the dirty flag. -/
def execWrite (now : Nat) (point : Nat) (value : Rat) (s : State) : Result :=
  s.checked now
    (match s.points[point]? with
    | none => .next (s.raise .write)
    | some p =>
      if p.conf.kind ≠ .writable then .next (s.raise .write)
      else if inDomain p.conf.encoding value = false then .next (s.raise .value)
      else .next ((s.setLastNow now).setPoints (s.points.set point (p.written value))))

/-- RESERVED_OP: raises F_OP before any other check (R84, R224); ignored once faulted (R225). -/
def execReservedOp (_now : Nat) (_operand : Operand) (s : State) : Result :=
  s.unlessFaulted (.next (s.raise .op))

end Sys2Proof.Machine
end

