-- ==== Sys2Proof/Machine/Dispatch.lean ====
section
/-! DEFINITION. One arm per row of the opcode table. -/

namespace Sys2Proof.Machine

def exec (i : Instr) (s : State) : Host.Outcome State Fault Refusal :=
  match i with
  | .cmdNone f => Sys2Proof.Machine.execCmdNone f s
  | .cmdOpaque01 f => Sys2Proof.Machine.execCmdOpaque01 f s
  | .cmdInf f => Sys2Proof.Machine.execCmdInf f s
  | .cmdSet f => Sys2Proof.Machine.execCmdSet f s
  | .cmdAck f => Sys2Proof.Machine.execCmdAck f s
  | .cmdNack f => Sys2Proof.Machine.execCmdNack f s
  | .cmdGet f => Sys2Proof.Machine.execCmdGet f s
  | .cmdRet f => Sys2Proof.Machine.execCmdRet f s
  | .cmdOpaque08 low f => Sys2Proof.Machine.execCmdOpaque08 low f s
  | .cmdOpaque10 low f => Sys2Proof.Machine.execCmdOpaque10 low f s
  | .cmdOpaque20 low f => Sys2Proof.Machine.execCmdOpaque20 low f s
  | .cmdOpaque40 low f => Sys2Proof.Machine.execCmdOpaque40 low f s
  | .cmdOpaque80 low f => Sys2Proof.Machine.execCmdOpaque80 low f s
  | .feed now raw => Sys2Proof.Machine.execFeed now raw s
  | .tick now => Sys2Proof.Machine.execTick now s
  | .write now point value => Sys2Proof.Machine.execWrite now point value s
  | .reservedOp now operand => Sys2Proof.Machine.execReservedOp now operand s
  | .setU8 a => Sys2Proof.Machine.execSetU8 a s
  | .infU8 a => Sys2Proof.Machine.execInfU8 a s
  | .setI8 a => Sys2Proof.Machine.execSetI8 a s
  | .infI8 a => Sys2Proof.Machine.execInfI8 a s
  | .setI16 a => Sys2Proof.Machine.execSetI16 a s
  | .infI16 a => Sys2Proof.Machine.execInfI16 a s
  | .setI32 a => Sys2Proof.Machine.execSetI32 a s
  | .infI32 a => Sys2Proof.Machine.execInfI32 a s
  | .setTemp a => Sys2Proof.Machine.execSetTemp a s
  | .infTemp a => Sys2Proof.Machine.execInfTemp a s
  | .setRoomTemp a => Sys2Proof.Machine.execSetRoomTemp a s
  | .infRoomTemp a => Sys2Proof.Machine.execInfRoomTemp a s
  | .selUnused low a => Sys2Proof.Machine.execSelUnused low a s
  | .buildGet e src dst field => Sys2Proof.Machine.execBuildGet e src dst field s
  | .parseU8 p => Sys2Proof.Machine.execParseU8 p s
  | .parseI8 p => Sys2Proof.Machine.execParseI8 p s
  | .parseI16 p => Sys2Proof.Machine.execParseI16 p s
  | .parseI32 p => Sys2Proof.Machine.execParseI32 p s
  | .parseTemp p => Sys2Proof.Machine.execParseTemp p s
  | .parseRoomTemp p => Sys2Proof.Machine.execParseRoomTemp p s
  | .parseText p => Sys2Proof.Machine.execParseText p s
  | .parseUnused7 p => Sys2Proof.Machine.execParseUnused7 p s
  | .crc16 bytes => Sys2Proof.Machine.execCrc16 bytes s
  | .serialize p => Sys2Proof.Machine.execSerialize p s

end Sys2Proof.Machine
end

