-- ==== Sys2Proof/Machine/Step.lean ====
section
/-! DEFINITION. One step of the machine: the next input, if any, is taken from the queue and processed whole
(00_scope.md R6; 20_memory.md R56, R58). -/

namespace Sys2Proof.Machine

/-- One step. With nothing pending the block is idle (60_exceptions.md R233). A reset sets every piece of state from the
configuration (R250, R251). An operation is decoded and executed, its output sequence beginning empty (R227).

DESIGN CHOICE (log 22): the form is decoded before the fault register and the clock are looked at, so one that is no
instruction is refused on a faulted block too, where R225 speaks of requests only. -/
def step (s : State) : Host.Outcome State Fault Refusal :=
  match s.pending with
  | [] => .next s
  | .reset c :: rest => .next ((State.resetWith c).setPending rest)
  | .op code :: rest =>
    match decode code with
    | .ok i => exec i (s.begin rest)
    | .error why => .refused (.undecodable why)

/-- The state with a table word's operation as the next input (log 8); a word of no row leaves the state as it is. -/
def State.withFetchWord (s : State) (nbits w : Nat) : State :=
  match tableCode nbits w with
  | some c => { s with pending := .op c :: s.pending }
  | none => s

end Sys2Proof.Machine
end

