-- ==== Sys2Proof/Safety.lean ====
section
/-! DEFINITION. The terms claims are stated in: the invariant of the block, runs of FEED requests, and the spec's own
readings of readiness, rounding and signed numbers, written apart from the operations that compute them. -/

namespace Sys2Proof

open Sys2Proof.Machine

/-- The configuration `C` a state holds (10_state.md R32). -/
def Machine.State.config (s : State) : Configuration :=
  { block := s.cfg, points := s.points.map Point.conf }

/-- The five header bytes that the receiver registers stand for (30_encoding.md R70). -/
def Machine.Receiver.header (r : Receiver) : List Byte :=
  [0xDC, sourceByte r.src, r.dst, r.len, r.cmd]

/-- The receiver invariant of 43_receiver.md R168: in each state the buffer is the bytes taken since the start byte, and
the registers are what those bytes say. -/
def Machine.Receiver.Inv (r : Receiver) : Prop :=
  match r.state with
  | .start => r.buf = []
  | .sourceAddr => r.buf = r.header.take 1
  | .destAddr => r.buf = r.header.take 2
  | .length => r.buf = r.header.take 3
  | .command => r.buf = r.header.take 4
  | .field0 => r.buf = r.header ∧ r.field = 0
  | .field1 => r.buf = r.header ++ (bytes32 r.field).drop 3 ∧ r.field.toNat < 2 ^ 8
  | .field2 => r.buf = r.header ++ (bytes32 r.field).drop 2 ∧ r.field.toNat < 2 ^ 16
  | .field3 => r.buf = r.header ++ (bytes32 r.field).drop 1 ∧ r.field.toNat < 2 ^ 24
  | .payload => r.buf.take 9 = r.header ++ bytes32 r.field ∧ r.buf.length + 2 < r.len.toNat
  | .crc0 => r.buf.take 9 = r.header ++ bytes32 r.field ∧ r.buf.length + 2 = max 11 r.len.toNat
  | .crc1 =>
    r.buf.take 9 = r.header ++ bytes32 r.field ∧ r.buf.length + 1 = max 11 r.len.toNat
      ∧ r.crc = (r.buf.getLastD 0).zeroExtend 16 <<< 8

/-- The point invariant: counters at most 5 (10_state.md R38), a pending write has a target (44_scheduler.md R183), targets
lie in their domain (R195), and a sensor's write state keeps its reset values (R31). -/
def Machine.Point.Inv (p : Point) : Prop :=
  p.getCount ≤ 5 ∧ p.setCount ≤ 5 ∧ (p.dirty = true → p.target ≠ none)
    ∧ (∀ v, p.target = some v → inDomain p.conf.encoding v = true)
    ∧ (p.conf.kind = .readOnly → p.dirty = false ∧ p.target = none ∧ p.setCount = 0)

/-- The invariant of the block: the receiver's, every point's, and F_CONFIG exactly under an ill-formed configuration
(10_state.md R34, 70_reset_and_hazards.md R251). -/
def Machine.State.Inv (s : State) : Prop :=
  s.rx.Inv ∧ (∀ p ∈ s.points, p.Inv) ∧ (s.fault = some .config ↔ configOk s.config = false)

/-- A request with clock value `now` passes the checks of 60_exceptions.md R225 and R229. -/
def Machine.State.Accepts (s : State) (now : Nat) : Prop :=
  s.fault = none ∧ s.lastNow ≤ now

/-- FEED raw line bytes one after another at one clock value (30_encoding.md R87, `FEEDR`). -/
def feedAll (now : Nat) : List Byte → State → Result
  | [], s => .next s
  | raw :: rest, s =>
    match exec (.feed now raw) s with
    | .next t => feedAll now rest t
    | .fault r => .fault r
    | .refused r => .refused r

/-- What `ready_to_set` returns (44_scheduler.md R181): dirty, and below five sends or past the back-off. -/
def Machine.Point.SetDue (now : Nat) (p : Point) : Prop :=
  p.dirty = true ∧ (p.setCount < 5 ∨ p.nextUpdate + p.conf.retryInterval ≤ now)

/-- What `ready_to_update` returns (R182): due, and below five Gets or past the back-off. -/
def Machine.Point.GetDue (now : Nat) (p : Point) : Prop :=
  p.nextUpdate ≤ now ∧ (p.getCount < 5 ∨ p.nextUpdate + p.conf.retryInterval ≤ now)

/-- A point after step 1's scan has passed it: a writable point's exhausted set counter is cleared once its back-off is
over (R181). -/
def Machine.Point.afterSetScan (now : Nat) (p : Point) : Point :=
  if p.conf.kind = .writable ∧ 5 ≤ p.setCount ∧ p.nextUpdate + p.conf.retryInterval ≤ now then
    { p with setCount := 0 }
  else p

/-- A point after a scan for polls of `kind` has passed it (R182). -/
def Machine.Point.afterGetScan (kind : Kind) (now : Nat) (p : Point) : Point :=
  if p.conf.kind = kind ∧ 5 ≤ p.getCount ∧ p.nextUpdate + p.conf.retryInterval ≤ now then
    { p with getCount := 0 }
  else p

/-- `z` is the integer nearest to `x`, the one farther from zero on a tie (00_scope.md R11). -/
def IsRounded (z : Int) (x : Rat) : Prop :=
  |(z : Rat) - x| ≤ 1 / 2 ∧ (|(z : Rat) - x| = 1 / 2 → |x| ≤ |(z : Rat)|)

/-- The `n`-bit pattern `k` read as a two's-complement integer (R9, `as_signed_N`). -/
def asSigned (n k : Nat) : Int :=
  if k < 2 ^ (n - 1) then (k : Int) else (k : Int) - 2 ^ n

/-- One shift of the CRC in numbers (40_crc.md R100): double modulo 2^16, XOR 0x1021 if bit 15 was set. -/
def crcShiftNat (c : Nat) : Nat :=
  if 2 ^ 15 ≤ c then (c * 2 ^^^ 0x1021) % 2 ^ 16 else c * 2 % 2 ^ 16

/-- The CRC of R100 in numbers: each byte into the high byte, then eight shifts. -/
def crcNat (bytes : List Byte) : Nat :=
  bytes.foldl (fun c b => crcShiftNat^[8] (c ^^^ b.toNat * 2 ^ 8)) 0

/-- The four field-id bytes of a frame by the sender's command (30_encoding.md R74, R75), as a list of bytes of `f`. -/
def sentFieldBytes (cmd : Byte) (f : FieldId) : List Byte :=
  let byte := fun n => BitVec.ofNat 8 (f.toNat / 2 ^ (8 * n))
  if cmd = 0x02 ∨ cmd = 0x03 ∨ cmd = 0x06 then [byte 3, byte 1, byte 2, byte 0]
  else [byte 3, byte 2, byte 1, byte 0]

/-- The bytes of a frame before its CRC (R70, R71, 41_packet_model.md R111). -/
def sentBody (cmd : Byte) (src : BusAddr) (dst : Byte) (f : FieldId) (payload : List Byte) : List Byte :=
  [0xDC, BitVec.ofNat 8 (128 + src.toNat), dst, BitVec.ofNat 8 (11 + payload.length), cmd]
    ++ sentFieldBytes cmd f ++ payload

/-- The whole frame a packet of these fields goes out as, in logical bytes: the body, then its CRC, high byte first. -/
def sentFrame (cmd : Byte) (src : BusAddr) (dst : Byte) (f : FieldId) (payload : List Byte) : List Byte :=
  let c := crcNat (sentBody cmd src dst f payload)
  sentBody cmd src dst f payload ++ [BitVec.ofNat 8 (c / 2 ^ 8), BitVec.ofNat 8 c]

/-- The packet record of a built packet (R110): its length byte and CRC are those of its serialization. -/
def builtPacket (cmd : Byte) (src : BusAddr) (dst : Byte) (f : FieldId) (payload : List Byte) : Packet :=
  { cmd := cmd, src := src, dst := dst, len := BitVec.ofNat 8 (11 + payload.length), field := f, payload := payload,
    crc := BitVec.ofNat 16 (crcNat (sentBody cmd src dst f payload)) }

/-- The ValueEvents of a packet (44_scheduler.md R192, R196): one per point whose field id matches, in index order, each
decoded by that point's own encoding. -/
def publishedValues (field : FieldId) (payload : List Byte) (points : List Point) : List Event :=
  points.zipIdx.filterMap fun e =>
    if e.1.conf.fieldId = field then
      some (.value e.2 (decodeValue e.1.conf.encoding payload).1 (decodeValue e.1.conf.encoding payload).2)
    else none

/-- An event is a transmission. -/
def Machine.Event.isTx : Event → Bool
  | .tx _ => true
  | .packet _ => false
  | .value _ _ _ => false

/-- An event is a published value. -/
def Machine.Event.isValue : Event → Bool
  | .tx _ => false
  | .packet _ => false
  | .value _ _ _ => true

/-- The field id a receiver assembles, in arrival order (30_encoding.md R76), from a frame sent with command `cmd` for the
field id `f`: for Info, Set and Get the two middle bytes come out exchanged (70_reset_and_hazards.md R263). -/
def arrivedField (cmd : Byte) (f : FieldId) : FieldId :=
  if cmd = 0x02 ∨ cmd = 0x03 ∨ cmd = 0x06 then
    (f &&& 0xFF0000FF) ||| ((f &&& 0x00FF0000) >>> 8) ||| ((f &&& 0x0000FF00) <<< 8)
  else f

/-- Executing `i` returns a packet with these fields on the answer port (log 5) and changes nothing else. The length byte and
the CRC are left open here. It says so of any state `s`, of a faulted one too by the model's choice (log 21). -/
def ReturnsPacket (i : Instr) (s : State) (cmd : Byte) (src : BusAddr) (dst : Byte) (field : FieldId)
    (payload : List Byte) : Prop :=
  ∃ len crc, exec i s = .next { s with
    ret := some (.packet
      { cmd := cmd, src := src, dst := dst, len := len, field := field, payload := payload, crc := crc }) }

/-- Executing `i` returns the pair `(v, ok)` of a parser on the answer port (log 5) and changes nothing else. It says so of any
state `s`, of a faulted one too by the model's choice (log 21). -/
def ReturnsValue (i : Instr) (s : State) (v : Value) (ok : Bool) : Prop :=
  exec i s = .next { s with ret := some (.parsed v ok) }

/-- The qualifier byte of a built payload (30_encoding.md R81, 42_builders.md R132). -/
def sentQualifier (a : BuildArgs) : Byte :=
  if a.enableByte = 0x06 ∧ a.value = 0 then 0x05 else a.enableByte

/-- The operands the scheduler gives a point's builder for the value `v` (42_builders.md, section 2; 10_state.md R32). -/
def pointArgs (s : State) (p : Point) (v : Rat) : BuildArgs :=
  { src := BitVec.ofNat 7 s.cfg.srcAddr, dst := BitVec.ofNat 8 s.cfg.dstAddr, field := p.conf.fieldId, value := v,
    enableByte := BitVec.ofNat 8 p.conf.enableByte }

/-- A packet's frame as it goes onto the line: every byte inverted once (R78). -/
def lineBytes (p : Packet) : List Byte :=
  (sentFrame p.cmd p.src p.dst p.field p.payload).map fun b => b ^^^ 0xFF

/-- The Get of a point as it goes onto the line (42_builders.md R130). -/
def lineGet (s : State) (p : Point) : List Byte :=
  (sentFrame 0x06 (BitVec.ofNat 7 s.cfg.srcAddr) (BitVec.ofNat 8 s.cfg.dstAddr) p.conf.fieldId []).map fun b => b ^^^ 0xFF

end Sys2Proof
end

