-- ==== Sys2Proof/Certificates/Slice0/Obligations.lean ====
section
/-! DEFINITION. The statements for the provers. Each docstring names the rule of spec/ it formalises, or the sections and
decisions it rests on. -/

open Sys2Proof Sys2Proof.Machine

/-! ### The step -/

/-- R56, R58, log 3, log 4: an operation taken from the queue runs as the instruction it decodes to, on the state without
it and with an empty output sequence. -/
def Obligations.StepRunsDecodedOperation : Prop :=
  ∀ (s : State) (code : Code) (rest : List Input) (i : Instr),
    s.pending = .op code :: rest → decode code = .ok i →
    step s = exec i { s with pending := rest, out := [] }

/-- R233, log 3, log 14: with nothing pending the block is idle, and what decodes to no instruction is refused by name,
by the model's choice on a faulted block too (log 22). -/
def Obligations.StepIdlesOrRefusesUndecodable : Prop :=
  ∀ s : State,
    (s.pending = [] → step s = .next s)
    ∧ ∀ code rest why, s.pending = .op code :: rest → decode code = .error why → step s = .refused (.undecodable why)

/-- R250, R251 (values: decision D12), log 9: a reset input gives every piece of state its reset value under the
configuration that comes with it, and keeps the inputs behind it. -/
def Obligations.ResetInputSetsEveryStateToItsResetValue : Prop :=
  ∀ (s : State) (c : Configuration) (rest : List Input), s.pending = .reset c :: rest →
    step s = .next
      { rx := { state := .start, buf := [], src := 0, dst := 0, len := 0, cmd := 0, field := 0, crc := 0 }
        points := c.points.map fun conf =>
          { conf := conf, dirty := false, target := none, nextUpdate := 0, getCount := 0, setCount := 0 }
        fault := if configOk c then none else some .config
        lastNow := 0, cfg := c.block, out := [], ret := none, pending := rest }

/-- R33: the four conditions of a well-formed configuration. -/
def Obligations.ConfigurationCheckIsTheFourConditions : Prop :=
  ∀ c : Configuration, configOk c = true ↔
    c.block.srcAddr ≤ 127 ∧ c.block.dstAddr ≤ 127 ∧ c.points.length ≤ c.block.maxPoints
    ∧ (∀ p ∈ c.points, p.encoding = .text → p.kind = .readOnly) ∧ ∀ p ∈ c.points, p.enableByte ≤ 255

/-! ### Encodings -/

/-- R70, R72, R83, R84, R85, R82: words written out from the tables decode to their rows (a sanity statement). -/
def Obligations.SampleWordsDecodeToTheirRows : Prop :=
  decode (.req 0b00 7 (.raw 0x23)) = .ok (.feed 7 0x23)
  ∧ decode (.req 0b01 7 .none) = .ok (.tick 7)
  ∧ decode (.req 0b10 7 (.target 3 (1 / 2))) = .ok (.write 7 3 (1 / 2))
  ∧ decode (.req 0b11 7 .none) = .ok (.reservedOp 7 .none)
  ∧ (∀ a, decode (.builder 0b1011 a) = .ok (.infRoomTemp a))
  ∧ (∀ a, decode (.builder 0b0100 a) = .ok (.setI16 a))
  ∧ (∀ a, decode (.builder 0b1101 a) = .ok (.selUnused 0b01 a))
  ∧ (∀ p, decode (.parser 0b011 p) = .ok (.parseI32 p))
  ∧ decode (.frame [0xDC, 0x81, 0x00, 0x0B, 0x06, 0x00, 0x12, 0x34, 0x56, 0x6C, 0x91])
      = .ok (.cmdGet ⟨0x01, 0x00, 0x0B, 0x00123456, [], 0x6C91⟩)
  ∧ decode (.frame [0xDC, 0x80, 0x42, 0x0B, 0x20, 0x11, 0x22, 0x33, 0x44, 0x50, 0x2E])
      = .ok (.cmdOpaque20 0 ⟨0x00, 0x42, 0x0B, 0x11223344, [], 0x502E⟩)

/-- R70 to R86: decoding the encoding of a well-formed instruction of any row gives it back, every operand included. -/
def Obligations.DecodeOfEncodeIsTheInstruction : Prop :=
  ∀ i : Instr, i.wf = true → decode (encode i) = .ok i

/-- R70 to R86: an encoded form that decodes is the encoding of what it decodes to: no bit of it is dropped. -/
def Obligations.EncodeOfDecodeIsTheEncodedForm : Prop :=
  ∀ (c : Code) (i : Instr), decode c = .ok i → encode i = c

/-- R70, R71, R77, R103: a frame that decodes is well formed, is 11 to 255 bytes long, as its length byte says, and has CRC
residue zero. -/
def Obligations.DecodedFramesAreValid : Prop :=
  ∀ (bytes : List Byte) (i : Instr), decode (.frame bytes) = .ok i →
    i.wf = true ∧ 11 ≤ bytes.length ∧ bytes.length ≤ 255 ∧ bytes[3]? = some (BitVec.ofNat 8 bytes.length)
    ∧ Machine.crc16 bytes = 0

/-- 30_encoding.md, introduction: the rows of each format cover every code, and no code fits two different rows. -/
def Obligations.TableRowsCoverEveryCodeOnce : Prop :=
  ∀ c : Code, (∃ i : Instr, i.row.fits c = true)
    ∧ ∀ i j : Instr, i.row.fits c = true → j.row.fits c = true → i.row = j.row

/-! ### CRC and serializer -/

/-- R100: CRC16 returns the bitwise CRC of its bytes, and changes nothing else. The answer port (log 5) and that it runs on a
faulted block too (log 21) are the model's choices. -/
def Obligations.Crc16ReturnsTheBitwiseCrc : Prop :=
  ∀ (bytes : List Byte) (s : State), crcNat bytes < 2 ^ 16
    ∧ exec (.crc16 bytes) s = .next { s with ret := some (.crc (BitVec.ofNat 16 (crcNat bytes))) }

/-- R103 and a corner case of R100, both marked as derived: a message followed by its CRC has CRC zero, and leading zero
bytes do not change a CRC. -/
def Obligations.CrcResidueIsZeroAndLeadingZerosAreInvisible : Prop :=
  (∀ m : List Byte, Machine.crc16 (m ++ [(Machine.crc16 m).extractLsb' 8 8, (Machine.crc16 m).extractLsb' 0 8]) = 0)
  ∧ ∀ (m : List Byte) (n : Nat), Machine.crc16 (List.replicate n 0 ++ m) = Machine.crc16 m

/-- R111, R112, R70, R71, with the field-id order of R74 and R75 (decision D3): SERIALIZE returns the frame laid out byte by
byte, and the packet with its length and CRC (log 18), and changes nothing else. That it does so on a faulted block too is the
model's choice (log 21). -/
def Obligations.SerializeReturnsTheFrame : Prop :=
  ∀ (p : Packet) (s : State), p.payload.length ≤ 244 →
    exec (.serialize p) s = .next { s with
      ret := some (.frame (builtPacket p.cmd p.src p.dst p.field p.payload)
        (sentFrame p.cmd p.src p.dst p.field p.payload)) }

/-- R111, log 11: SERIALIZE also completes on a longer payload, its bytes ending in the payload and two CRC bytes. That it does
so on a faulted block too is the model's choice (log 21). -/
def Obligations.SerializeCompletesOnEveryPacket : Prop :=
  ∀ (p : Packet) (s : State), ∃ q head hi lo, head.length = 9
    ∧ exec (.serialize p) s = .next { s with ret := some (.frame q (head ++ p.payload ++ [hi, lo])) }
    ∧ Machine.crc16 (head ++ p.payload ++ [hi, lo]) = 0

/-- R76, R263: the serialization of a packet decodes to its row, with every field kept but the field id, which the receiver
assembles in arrival order. -/
def Obligations.SerializedPacketDecodesWithArrivedField : Prop :=
  ∀ p : Packet, p.payload.length ≤ 244 → ∃ crc,
    decode (.frame (serializeBytes p)) = .ok (instrOfCommand p.cmd
      { src := p.src, dst := p.dst, len := BitVec.ofNat 8 (11 + p.payload.length), field := arrivedField p.cmd p.field,
        payload := p.payload, crc := crc })

/-! ### Builders -/

/-- R130: BUILD_GET returns a Get with no payload, whatever its three ignored bits are. The answer port (log 5) and that it runs
on a faulted block too (log 21) are the model's choices. -/
def Obligations.BuildGetReturnsAnEmptyGet : Prop :=
  ∀ (e : BitVec 3) (src : BusAddr) (dst : Byte) (field : FieldId) (s : State),
    ReturnsPacket (.buildGet e src dst field) s 0x06 src dst field []

/-- R131, R134, R135, R136, R137: the byte builders return a Set to the destination or an Info to 0x7F, with the qualifier
and one value byte: the value for UInt8, its remainder by 256 for Int8. R133 gives the value byte only inside the domain:
that they complete outside it, the byte of a value that is no integer, or outside 0..255 for UInt8, left open, is the model's
choice (log 10). The qualifier tests the exact value (decision D15). That they run on a faulted block too is the model's choice (log 21). -/
def Obligations.ByteBuildersReturnSetAndInfo : Prop :=
  ∀ (a : BuildArgs) (s : State),
    (∃ V : Byte, ReturnsPacket (.setU8 a) s 0x03 a.src a.dst a.field [sentQualifier a, V]
      ∧ ReturnsPacket (.infU8 a) s 0x02 a.src 0x7F a.field [sentQualifier a, V]
      ∧ ∀ n : Nat, n ≤ 255 → a.value = n → V.toNat = n)
    ∧ (∃ V : Byte, ReturnsPacket (.setI8 a) s 0x03 a.src a.dst a.field [sentQualifier a, V]
      ∧ ReturnsPacket (.infI8 a) s 0x02 a.src 0x7F a.field [sentQualifier a, V]
      ∧ ∀ z : Int, a.value = z → (V.toNat : Int) = z % 256)

/-- R131, R138, R139, R140, R141: the 16- and 32-bit builders return a Set to the destination or an Info to 0x7F, with the
qualifier and the value's remainder by 2^16 or 2^32, high byte first. R133 gives the value only inside the domain: that they
complete outside it, the bytes of a value that is no integer left open, is the model's choice (log 10). The qualifier tests the
exact value (decision D15). That they run on a faulted block too is the model's choice (log 21). -/
def Obligations.WordBuildersReturnSetAndInfo : Prop :=
  ∀ (a : BuildArgs) (s : State),
    (∃ v1 v0 : Byte, ReturnsPacket (.setI16 a) s 0x03 a.src a.dst a.field [sentQualifier a, v1, v0]
      ∧ ReturnsPacket (.infI16 a) s 0x02 a.src 0x7F a.field [sentQualifier a, v1, v0]
      ∧ ∀ z : Int, a.value = z → (v1.toNat * 2 ^ 8 + v0.toNat : Int) = z % 2 ^ 16)
    ∧ (∃ v3 v2 v1 v0 : Byte, ReturnsPacket (.setI32 a) s 0x03 a.src a.dst a.field [sentQualifier a, v3, v2, v1, v0]
      ∧ ReturnsPacket (.infI32 a) s 0x02 a.src 0x7F a.field [sentQualifier a, v3, v2, v1, v0]
      ∧ ∀ z : Int, a.value = z →
          (v3.toNat * 2 ^ 24 + v2.toNat * 2 ^ 16 + v1.toNat * 2 ^ 8 + v0.toNat : Int) = z % 2 ^ 32)

/-- R142, R143, R145, with the tie rule of decision D14: the temperature builders send `round(v*64)` modulo 2^16, high byte
first, after the qualifier for Temperature, before a zero byte and without a qualifier for RoomTemperature. The qualifier tests
the exact value (decision D15). That they complete on a value outside the domain (log 10), and on a faulted block too (log 21),
is the model's choice. -/
def Obligations.TemperatureBuildersRoundHalfAwayFromZero : Prop :=
  ∀ (a : BuildArgs) (s : State), ∃ v1 v0 : Byte,
    ReturnsPacket (.setTemp a) s 0x03 a.src a.dst a.field [sentQualifier a, v1, v0]
    ∧ ReturnsPacket (.infTemp a) s 0x02 a.src 0x7F a.field [sentQualifier a, v1, v0]
    ∧ ReturnsPacket (.infRoomTemp a) s 0x02 a.src 0x7F a.field [v1, v0, 0x00]
    ∧ ∀ z : Int, IsRounded z (a.value * 64) → (v1.toNat * 2 ^ 8 + v0.toNat : Int) = z % 2 ^ 16

/-- R144 (decision D19): the unicast RoomTemperature builder returns no packet, on a faulted block too by the model's choice
(log 21). -/
def Obligations.UnicastRoomTemperatureBuildsNothing : Prop :=
  ∀ (a : BuildArgs) (s : State), exec (.setRoomTemp a) s = .next { s with ret := some .noPacket }

/-- R110, R112: every packet a builder returns carries the length byte and the CRC of its own serialization. -/
def Obligations.BuiltPacketsCarryLengthAndCrc : Prop :=
  ∀ (c : Code) (i : Instr) (s t : State) (p : Packet), c.format = .builderSel ∨ c.format = .builderGet →
    decode c = .ok i → exec i s = .next t → t.ret = some (.packet p) →
    p = builtPacket p.cmd p.src p.dst p.field p.payload

/-- R133 (decision D14): the domains of written values. -/
def Obligations.DomainsOfWrittenValues : Prop :=
  ∀ v : Rat,
    (inDomain .uint8 v = true ↔ ∃ z : Int, v = z ∧ 0 ≤ z ∧ z ≤ 255)
    ∧ (inDomain .int8 v = true ↔ ∃ z : Int, v = z ∧ -128 ≤ z ∧ z ≤ 127)
    ∧ (inDomain .int16 v = true ↔ ∃ z : Int, v = z ∧ -32768 ≤ z ∧ z ≤ 32767)
    ∧ (inDomain .int32 v = true ↔ ∃ z : Int, v = z ∧ -2 ^ 31 ≤ z ∧ z ≤ 2 ^ 31 - 1)
    ∧ (inDomain .temperature v = true ↔ ∃ z : Int, IsRounded z (v * 64) ∧ -32768 ≤ z ∧ z ≤ 32767)
    ∧ (inDomain .roomTemperature v = true ↔ ∃ z : Int, IsRounded z (v * 64) ∧ -32768 ≤ z ∧ z ≤ 32767)

/-! ### Parsers -/

/-- R113, R114 (decision D18): the byte parsers read the second of two bytes, unsigned or signed, and give `(0, false)` on
any other length. That they run on a faulted block too is the model's choice (log 21). -/
def Obligations.ByteParsersReadTheSecondByte : Prop :=
  ∀ s : State,
    (∀ q b : Byte, ReturnsValue (.parseU8 [q, b]) s (.int b.toNat) true
      ∧ ReturnsValue (.parseI8 [q, b]) s (.int (asSigned 8 b.toNat)) true)
    ∧ ∀ p : List Byte, p.length ≠ 2 → ReturnsValue (.parseU8 p) s (.int 0) false ∧ ReturnsValue (.parseI8 p) s (.int 0) false

/-- R115, R117, R121 (decision D18: the shape flag and the default pair are the spec's own addition): the 16- and 32-bit parsers
read a signed big-endian number after the first byte, and give `(0, false)` on any other length. That they run on a faulted block
too is the model's choice (log 21). -/
def Obligations.WordParsersReadSignedBigEndian : Prop :=
  ∀ s : State,
    (∀ q b1 b0 : Byte, ReturnsValue (.parseI16 [q, b1, b0]) s (.int (asSigned 16 (b1.toNat * 2 ^ 8 + b0.toNat))) true)
    ∧ (∀ p : List Byte, p.length ≠ 3 → ReturnsValue (.parseI16 p) s (.int 0) false)
    ∧ (∀ q b3 b2 b1 b0 : Byte, ReturnsValue (.parseI32 [q, b3, b2, b1, b0]) s
        (.int (asSigned 32 (b3.toNat * 2 ^ 24 + b2.toNat * 2 ^ 16 + b1.toNat * 2 ^ 8 + b0.toNat))) true)
    ∧ ∀ p : List Byte, p.length ≠ 5 → ReturnsValue (.parseI32 p) s (.int 0) false

/-- R116, R118, R119 (decisions D14, D16, D17): the temperature parsers give the signed 16-bit number divided by 64, exactly,
and `(0, false)` on any other length; the text parser gives the whole payload, whatever its length. That they run on a
faulted block too is the model's choice (log 21). -/
def Obligations.TemperatureAndTextParsersAreExact : Prop :=
  ∀ s : State,
    (∀ q b1 b0 : Byte, ∃ x : Rat, x * 64 = asSigned 16 (b1.toNat * 2 ^ 8 + b0.toNat)
      ∧ ReturnsValue (.parseTemp [q, b1, b0]) s (.rat x) true ∧ ReturnsValue (.parseRoomTemp [q, b1, b0]) s (.rat x) true)
    ∧ (∀ p : List Byte, p.length ≠ 3 →
      ReturnsValue (.parseTemp p) s (.rat 0) false ∧ ReturnsValue (.parseRoomTemp p) s (.rat 0) false)
    ∧ ∀ p : List Byte, ReturnsValue (.parseText p) s (.text p) true

/-- R147: for every unicast variant but RoomTemperature, parsing the built payload gives the value back: exactly for the
integer encodings, within 1/128 for Temperature. -/
def Obligations.BuiltPayloadsParseBack : Prop :=
  ∀ (enc : Encoding) (a : BuildArgs) (i : Instr) (s t : State) (p : Packet),
    enc ≠ .roomTemperature → enc ≠ .text → inDomain enc a.value = true →
    decode (.builder (encodingCode enc ++ 0#1) a) = .ok i → exec i s = .next t → t.ret = some (.packet p) →
    (enc ≠ .temperature → ∃ z : Int, a.value = z ∧ decodeValue enc p.payload = (.int z, true))
    ∧ (enc = .temperature → ∃ x : Rat, decodeValue enc p.payload = (.rat x, true) ∧ |x - a.value| ≤ 1 / 128)

/-! ### The receiver -/

/-- R151: in `Start` the buffer is reset on every byte, and only the start byte is kept and moves on. -/
def Obligations.FeedInStartSeeksTheStartByte : Prop :=
  ∀ (s : State) (now : Nat) (b : Byte), s.Accepts now → s.rx.state = .start →
    exec (.feed now (b ^^^ 0xFF)) s = .next { s with
      lastNow := now
      rx := if b = 0xDC then { s.rx with buf := [b], state := .sourceAddr } else { s.rx with buf := [], state := .start } }

/-- R152: in `SourceAddr` a byte without its top bit is dropped and the search begins again; the low seven bits of any
other are the source address. -/
def Obligations.FeedInSourceAddrNeedsTheMarker : Prop :=
  ∀ (s : State) (now : Nat) (b : Byte), s.Accepts now → s.rx.state = .sourceAddr →
    exec (.feed now (b ^^^ 0xFF)) s = .next { s with
      lastNow := now
      rx := if b.toNat < 128 then { s.rx with buf := [], state := .start }
        else { s.rx with buf := s.rx.buf ++ [b], src := BitVec.ofNat 7 (b.toNat % 128), state := .destAddr } }

/-- R153, R154 (decisions D4, D6): the destination and length bytes are stored verbatim, every value accepted. -/
def Obligations.FeedStoresDestinationAndLength : Prop :=
  ∀ (s : State) (now : Nat) (b : Byte), s.Accepts now →
    (s.rx.state = .destAddr → exec (.feed now (b ^^^ 0xFF)) s = .next { s with
      lastNow := now, rx := { s.rx with buf := s.rx.buf ++ [b], dst := b, state := .length } })
    ∧ (s.rx.state = .length → exec (.feed now (b ^^^ 0xFF)) s = .next { s with
      lastNow := now, rx := { s.rx with buf := s.rx.buf ++ [b], len := b, state := .command } })

/-- R155: the command byte is stored as it is, and the field register cleared. -/
def Obligations.FeedInCommandKeepsTheRawByte : Prop :=
  ∀ (s : State) (now : Nat) (b : Byte), s.Accepts now → s.rx.state = .command →
    exec (.feed now (b ^^^ 0xFF)) s = .next { s with
      lastNow := now, rx := { s.rx with buf := s.rx.buf ++ [b], cmd := b, field := 0, state := .field0 } }

/-- R156, R157, R158, R159: each field byte enters the field register from the right, and after the fourth the payload
follows only if the length is above 11. -/
def Obligations.FeedCollectsTheFieldId : Prop :=
  ∀ (s : State) (now : Nat) (b : Byte), s.Accepts now →
    ∀ here next, (here, next) ∈
      [(RxState.field0, RxState.field1), (.field1, .field2), (.field2, .field3),
        (.field3, if 11 < s.rx.len.toNat then .payload else .crc0)] →
      s.rx.state = here →
      exec (.feed now (b ^^^ 0xFF)) s = .next { s with
        lastNow := now
        rx := { s.rx with
          buf := s.rx.buf ++ [b], field := BitVec.ofNat 32 (s.rx.field.toNat * 2 ^ 8 + b.toNat), state := next } }

/-- R160: every byte in `Payload` is payload, until the buffer holds all but the CRC. -/
def Obligations.FeedInPayloadCountsToTheLength : Prop :=
  ∀ (s : State) (now : Nat) (b : Byte), s.Accepts now → s.rx.state = .payload →
    exec (.feed now (b ^^^ 0xFF)) s = .next { s with
      lastNow := now
      rx := { s.rx with
        buf := s.rx.buf ++ [b]
        state := if ((s.rx.buf.length + 1 : Nat) : Int) = s.rx.len.toNat - 2 then .crc0 else .payload } }

/-- R161: the first CRC byte goes into the high half of the CRC register. -/
def Obligations.FeedInCrc0TakesTheHighByte : Prop :=
  ∀ (s : State) (now : Nat) (b : Byte), s.Accepts now → s.rx.state = .crc0 →
    exec (.feed now (b ^^^ 0xFF)) s = .next { s with
      lastNow := now
      rx := { s.rx with buf := s.rx.buf ++ [b], crc := BitVec.ofNat 16 (b.toNat * 2 ^ 8), state := .crc1 } }

/-- R162, R163, R166 (decision D4): a completed frame whose CRC differs or whose length byte is below 11 is discarded in
silence, and the receiver is back in `Start`. -/
def Obligations.FeedDiscardsAnInvalidFrame : Prop :=
  ∀ (s : State) (now : Nat) (b : Byte), s.Accepts now → s.rx.state = .crc1 →
    (Machine.crc16 ((s.rx.buf ++ [b]).dropLast.dropLast) ≠ s.rx.crc ||| b.zeroExtend 16 ∨ s.rx.len.toNat < 11) →
    exec (.feed now (b ^^^ 0xFF)) s = .next { s with
      lastNow := now, rx := { s.rx with buf := [], crc := s.rx.crc ||| b.zeroExtend 16, state := .start } }

/-- R162, R163, R164 (decisions D4, D5, D7): a completed valid frame runs the row of its command byte on the packet the
registers hold, at this request's clock value, and the receiver is back in `Start`. -/
def Obligations.FeedRunsTheCommandOfAValidFrame : Prop :=
  ∀ (s : State) (now : Nat) (b : Byte), s.Accepts now → s.rx.state = .crc1 →
    Machine.crc16 ((s.rx.buf ++ [b]).dropLast.dropLast) = s.rx.crc ||| b.zeroExtend 16 → 11 ≤ s.rx.len.toNat →
    exec (.feed now (b ^^^ 0xFF)) s = exec
      (instrOfCommand s.rx.cmd
        { src := s.rx.src, dst := s.rx.dst, len := s.rx.len, field := s.rx.field,
          payload := ((s.rx.buf ++ [b]).take (s.rx.len.toNat - 2)).drop 9, crc := s.rx.crc ||| b.zeroExtend 16 })
      { s with
        lastNow := now, rx := { s.rx with buf := [], crc := s.rx.crc ||| b.zeroExtend 16, state := .start } }

/-- R86, R151 to R164: feeding a whole valid frame, inverted, to a receiver in `Start` does exactly what the row of its
command byte does, and leaves the receiver in `Start` with the frame's fields in its registers. -/
def Obligations.FeedingAFrameRunsItsCommand : Prop :=
  ∀ (s : State) (now : Nat) (cmd : Byte) (f : Frame), s.Accepts now → s.rx.state = .start → f.wf cmd = true →
    feedAll now ((encodeFrame cmd f).map fun b => b ^^^ 0xFF) s = exec (instrOfCommand cmd f)
      { s with
        lastNow := now
        rx := { state := .start, buf := [], src := f.src, dst := f.dst, len := f.len, cmd := cmd, field := f.field,
                crc := f.crc } }

/-- R169: from a receiver that has taken its length byte, exactly `max(11, rx_len) - 4` more bytes, whatever their values,
lead back to `Start`, and no fewer do. -/
def Obligations.FrameAttemptConsumesItsLength : Prop :=
  ∀ (s : State) (now : Nat) (raws : List Byte), s.Accepts now → s.rx.Inv → s.rx.state = .command →
    raws.length = max 11 s.rx.len.toNat - 4 →
    (∃ t, feedAll now raws s = .next t ∧ t.rx.state = .start)
    ∧ ∀ k, k < raws.length → ∃ t, feedAll now (raws.take k) s = .next t ∧ t.rx.state ≠ .start

/-! ### Frame rows -/

/-- R164, R192, R196 (decisions D5, D18), log 7: an Info or Ret announces its packet, resets the get counter and the
timestamp of every point whose field id matches, and publishes one decoded value per match in index order. -/
def Obligations.InfoAndRetUpdateMatchingPoints : Prop :=
  ∀ (f : Frame) (s : State), s.fault = none →
    ∀ i cmd, (i, cmd) ∈ [(Instr.cmdInf f, (0x02 : Byte)), (.cmdRet f, 0x07)] →
      exec i s = .next { s with
        points := s.points.map fun p =>
          if p.conf.fieldId = f.field then
            { p with getCount := 0, nextUpdate := s.lastNow + p.conf.updateInterval }
          else p
        out := s.out ++ .packet (f.toPacket cmd) :: publishedValues f.field f.payload s.points }

/-- R193: an Ack or a Nack clears the pending write and the set counter of every writable point whose field id matches,
and publishes nothing but its packet. -/
def Obligations.AckAndNackCommitMatchingWrites : Prop :=
  ∀ (f : Frame) (s : State), s.fault = none →
    ∀ i cmd, (i, cmd) ∈ [(Instr.cmdAck f, (0x04 : Byte)), (.cmdNack f, 0x05)] →
      exec i s = .next { s with
        points := s.points.map fun p =>
          if p.conf.kind = .writable ∧ p.conf.fieldId = f.field then { p with dirty := false, setCount := 0 } else p
        out := s.out ++ [.packet (f.toPacket cmd)] }

/-- R194: frames of every other command announce their packet, with the raw command byte, and change nothing else. -/
def Obligations.OtherCommandsOnlyAnnounce : Prop :=
  ∀ (f : Frame) (s : State) (l3 : BitVec 3) (l4 : BitVec 4) (l5 : BitVec 5) (l6 : BitVec 6) (l7 : BitVec 7),
    s.fault = none →
    ∀ i n, (i, n) ∈
      [(Instr.cmdNone f, 0), (.cmdOpaque01 f, 1), (.cmdSet f, 3), (.cmdGet f, 6), (.cmdOpaque08 l3 f, 8 + l3.toNat),
        (.cmdOpaque10 l4 f, 16 + l4.toNat), (.cmdOpaque20 l5 f, 32 + l5.toNat), (.cmdOpaque40 l6 f, 64 + l6.toNat),
        (.cmdOpaque80 l7 f, 128 + l7.toNat)] →
      exec i s = .next { s with out := s.out ++ [.packet (f.toPacket (BitVec.ofNat 8 n))] }

/-! ### TICK -/

/-- R183, R184 (decision D23 for the re-arm): TICK sends the first ready unicast write, once, as the packet its builder row
returns, counts it, moves its timestamp, and leaves it dirty. -/
def Obligations.TickSendsTheFirstReadyUnicastWrite : Prop :=
  ∀ (s : State) (now : Nat) (before : List Point) (p : Point) (after : List Point) (v : Rat) (i : Instr) (pkt : Packet),
    s.Accepts now → s.points = before ++ p :: after → (∀ q ∈ before, q.conf.kind = .writable → ¬ q.SetDue now) →
    p.conf.kind = .writable → p.SetDue now → p.conf.isBroadcast = false → p.target = some v →
    decode (.builder (encodingCode p.conf.encoding ++ 0#1) (pointArgs s p v)) = .ok i →
    exec i s = .next { s with ret := some (.packet pkt) } →
    exec (.tick now) s = .next { s with
      lastNow := now
      points := before.map (Point.afterSetScan now)
        ++ { p with
              setCount := (if 5 ≤ p.setCount then 0 else p.setCount) + 1
              nextUpdate := now + s.cfg.postSetPollInterval } :: after
      out := s.out ++ [.tx (lineBytes pkt)] }

/-- R185 (decisions D10, D23): TICK sends the first ready broadcast write and treats it as completed. -/
def Obligations.TickCompletesABroadcastWrite : Prop :=
  ∀ (s : State) (now : Nat) (before : List Point) (p : Point) (after : List Point) (v : Rat) (i : Instr) (pkt : Packet),
    s.Accepts now → s.points = before ++ p :: after → (∀ q ∈ before, q.conf.kind = .writable → ¬ q.SetDue now) →
    p.conf.kind = .writable → p.SetDue now → p.conf.isBroadcast = true → p.target = some v →
    decode (.builder (encodingCode p.conf.encoding ++ 1#1) (pointArgs s p v)) = .ok i →
    exec i s = .next { s with ret := some (.packet pkt) } →
    exec (.tick now) s = .next { s with
      lastNow := now
      points := before.map (Point.afterSetScan now) ++ { p with dirty := false, setCount := 0 } :: after
      out := s.out ++ [.tx (lineBytes pkt)] }

/-- R186 (decisions D19, D23): the first ready write of a unicast RoomTemperature point spends the tick with the bookkeeping
of a Set and sends nothing. -/
def Obligations.TickSpendsASilentRoomTemperatureSet : Prop :=
  ∀ (s : State) (now : Nat) (before : List Point) (p : Point) (after : List Point),
    s.Accepts now → s.points = before ++ p :: after → (∀ q ∈ before, q.conf.kind = .writable → ¬ q.SetDue now) →
    p.conf.kind = .writable → p.SetDue now → p.conf.isBroadcast = false → p.conf.encoding = .roomTemperature →
    p.target ≠ none →
    exec (.tick now) s = .next { s with
      lastNow := now
      points := before.map (Point.afterSetScan now)
        ++ { p with
              setCount := (if 5 ≤ p.setCount then 0 else p.setCount) + 1
              nextUpdate := now + s.cfg.postSetPollInterval } :: after }

/-- R187, R189 (decisions D11, D23): with no write ready, TICK polls the first due writable point and counts it; its timestamp
stays. -/
def Obligations.TickPollsTheFirstDueWritablePoint : Prop :=
  ∀ (s : State) (now : Nat) (before : List Point) (p : Point) (after : List Point),
    s.Accepts now → s.points = before ++ p :: after → (∀ q ∈ s.points, q.conf.kind = .writable → ¬ q.SetDue now) →
    (∀ q ∈ before, q.conf.kind = .writable → ¬ q.GetDue now) → p.conf.kind = .writable → p.GetDue now →
    exec (.tick now) s = .next { s with
      lastNow := now
      points := before.map (fun q => (q.afterSetScan now).afterGetScan .writable now)
        ++ { p.afterSetScan now with getCount := (if 5 ≤ p.getCount then 0 else p.getCount) + 1 }
          :: after.map (Point.afterSetScan now)
      out := s.out ++ [.tx (lineGet s p)] }

/-- R188, R189 (decisions D11, D23): with no write ready and no writable point due, TICK polls the first due sensor. -/
def Obligations.TickPollsTheFirstDueSensor : Prop :=
  ∀ (s : State) (now : Nat) (before : List Point) (p : Point) (after : List Point),
    s.Accepts now → s.points = before ++ p :: after →
    (∀ q ∈ s.points, q.conf.kind = .writable → ¬ q.SetDue now ∧ ¬ q.GetDue now) →
    (∀ q ∈ before, q.conf.kind = .readOnly → ¬ q.GetDue now) → p.conf.kind = .readOnly → p.GetDue now →
    exec (.tick now) s = .next { s with
      lastNow := now
      points := before.map (fun q => ((q.afterSetScan now).afterGetScan .writable now).afterGetScan .readOnly now)
        ++ { p with getCount := (if 5 ≤ p.getCount then 0 else p.getCount) + 1 }
          :: after.map (fun q => (q.afterSetScan now).afterGetScan .writable now)
      out := s.out ++ [.tx (lineGet s p)] }

/-- R190 (decision D23 for the re-arms): with nothing ready, TICK emits nothing, and only the clock and the re-arms of the
scans remain. -/
def Obligations.TickWithNothingReadyOnlyRearms : Prop :=
  ∀ (s : State) (now : Nat), s.Accepts now →
    (∀ q ∈ s.points, q.conf.kind = .writable → ¬ q.SetDue now) → (∀ q ∈ s.points, ¬ q.GetDue now) →
    exec (.tick now) s = .next { s with
      lastNow := now
      points := s.points.map fun q => ((q.afterSetScan now).afterGetScan .writable now).afterGetScan .readOnly now }

/-- R198: while some writable point is ready to set, TICK sends a Set or an Info or nothing, never a Get. -/
def Obligations.ReadyWritePreemptsPolls : Prop :=
  ∀ (s t : State) (now : Nat), s.Accepts now → (∃ p ∈ s.points, p.conf.kind = .writable ∧ p.SetDue now) →
    exec (.tick now) s = .next t →
    t.out = s.out ∨ ∃ bytes, t.out = s.out ++ [.tx bytes]
      ∧ (bytes[4]? = some (0x03 ^^^ 0xFF) ∨ bytes[4]? = some (0x02 ^^^ 0xFF))

/-- R181, R182, R222: TICK leaves a get counter and a set counter that have reached 5 alone until
`next_update_timestamp + retry_interval`. The two are apart: a point whose Sets are exhausted may still be polled. -/
def Obligations.TickKeepsExhaustedCountersDuringBackOff : Prop :=
  ∀ (s t : State) (now k : Nat) (p : Point), exec (.tick now) s = .next t → s.points[k]? = some p →
    now < p.nextUpdate + p.conf.retryInterval →
    ∃ q, t.points[k]? = some q ∧ (5 ≤ p.getCount → q.getCount = p.getCount) ∧ (5 ≤ p.setCount → q.setCount = p.setCount)

/-! ### WRITE, the faults, the clock -/

/-- R195 (decision D20): an accepted WRITE sets the target and the dirty flag of its point and the clock, and nothing else;
doing it twice is doing it once (R57). -/
def Obligations.WriteSetsTargetAndDirty : Prop :=
  ∀ (s : State) (now k : Nat) (v : Rat) (before : List Point) (p : Point) (after : List Point),
    s.Accepts now → s.points = before ++ p :: after → before.length = k → p.conf.kind = .writable →
    inDomain p.conf.encoding v = true →
    let t : State :=
      { s with lastNow := now, points := before ++ { p with target := some v, dirty := true } :: after }
    exec (.write now k v) s = .next t ∧ exec (.write now k v) t = .next t

/-- R195, R223 (decisions D20, D24): a WRITE to a missing or ReadOnly point raises F_WRITE, one of a value outside the domain
raises F_VALUE, and nothing but the fault register changes. -/
def Obligations.WriteRaisesItsFaults : Prop :=
  ∀ (s : State) (now k : Nat) (v : Rat), s.Accepts now →
    (s.points.length ≤ k → exec (.write now k v) s = .next { s with fault := some .write })
    ∧ ∀ p, s.points[k]? = some p →
      (p.conf.kind = .readOnly → exec (.write now k v) s = .next { s with fault := some .write })
      ∧ (p.conf.kind = .writable → inDomain p.conf.encoding v = false →
          exec (.write now k v) s = .next { s with fault := some .value })

/-- R84, R223, R224, R229 (decisions D2, D13, D24): a request with the reserved selector raises F_OP whatever its clock value
and operand are; FEED, TICK and WRITE with a clock value below the last raise F_TIME, before any other check; and nothing but the
fault register changes. -/
def Obligations.ReservedSelectorRaisesOpAndLateClockRaisesTime : Prop :=
  ∀ (s : State) (now : Nat), s.fault = none →
    (∀ operand, exec (.reservedOp now operand) s = .next { s with fault := some .op })
    ∧ (now < s.lastNow → ∀ i, (i = .tick now ∨ (∃ raw, i = .feed now raw) ∨ ∃ k v, i = .write now k v) →
        exec i s = .next { s with fault := some .time })

/-- R225 (decision D24), log 7: once faulted the block ignores every request and every frame: no state change, no event. The
builder, parser and function rows are no requests, and still return their results (log 21). A form that decodes to no instruction
is refused, not ignored (log 22). -/
def Obligations.FaultedBlockIgnoresRequestsAndFrames : Prop :=
  ∀ (s : State) (r : FaultCode), s.fault = some r →
    (∀ op now operand i, decode (.req op now operand) = .ok i → exec i s = .next s)
    ∧ ∀ cmd f, exec (instrOfCommand cmd f) s = .next s

/-! ### Whole-machine rules -/

/-- The invariant holds right after reset, under the model's empty configuration (log 2). -/
def Obligations.ResetStateMeetsTheInvariant : Prop :=
  State.reset.Inv

/-- R250, R251: the invariant holds after a reset under every configuration, well formed or not. -/
def Obligations.EveryResetMeetsTheInvariant : Prop :=
  ∀ c : Configuration, (State.resetWith c).Inv

/-- R22, R31, R34, R38, R168, R183: every step keeps the invariant: the buffer is what the registers say, counters stay at most
five, a pending write has a target in its domain, a sensor's write state keeps its reset values, and F_CONFIG stands exactly under
an ill-formed configuration. -/
def Obligations.StepKeepsTheInvariant : Prop :=
  ∀ s t : State, s.Inv → step s = .next t → t.Inv

/-- R85, R183, logs 12, 13, 14: from a state that meets the invariant a step never faults, and it refuses only an undecodable form
or an unused builder or parser code presented to it. -/
def Obligations.StepNeverFaultsAndRefusesOnlyUndecodableOrUnused : Prop :=
  ∀ s : State, s.Inv →
    (∀ r, step s ≠ .fault r)
    ∧ ∀ why, step s = .refused why → ∃ code rest, s.pending = .op code :: rest
      ∧ ((∃ e, decode code = .error e) ∨ (∃ low a, decode code = .ok (.selUnused low a))
        ∨ ∃ p, decode code = .ok (.parseUnused7 p))

/-- R20, R32, R34, R225, R229: no operation changes the configuration, turns the clock back, clears a fault, or touches the
inputs behind it. -/
def Obligations.NoOperationUndoesConfigurationClockOrFault : Prop :=
  ∀ (i : Instr) (s t : State), exec i s = .next t →
    t.config = s.config ∧ s.lastNow ≤ t.lastNow ∧ (∀ r, s.fault = some r → t.fault = some r) ∧ t.pending = s.pending

/-- R165, R168: only a FEED changes a receiver register. -/
def Obligations.OnlyFeedMovesTheReceiver : Prop :=
  ∀ (i : Instr) (s t : State), (∀ now raw, i ≠ .feed now raw) → exec i s = .next t → t.rx = s.rx

/-- R197, R227: a TICK emits at most one TxEvent and nothing else; every other operation emits nothing, or one PacketEvent
followed by ValueEvents. -/
def Obligations.OnlyTickTransmits : Prop :=
  ∀ (i : Instr) (s t : State), exec i s = .next t → ∃ events, t.out = s.out ++ events
    ∧ ((∃ now, i = .tick now) → events = [] ∨ ∃ bytes, events = [.tx bytes])
    ∧ ((∀ now, i ≠ .tick now) → events = [] ∨ ∃ p values, events = .packet p :: values ∧ ∀ e ∈ values, e.isValue = true)

/-- R37, R195: no operation but WRITE sets a dirty flag or changes a target. -/
def Obligations.OnlyWriteSetsDirtyAndTarget : Prop :=
  ∀ (i : Instr) (s t : State) (k : Nat) (p : Point), (∀ now j v, i ≠ .write now j v) → exec i s = .next t →
    s.points[k]? = some p → ∃ q, t.points[k]? = some q ∧ q.target = p.target ∧ (q.dirty = true → p.dirty = true)

/-- R85, R146, R82: the unused builder selectors and the unused parser code are refused (log 13), on a faulted block too by the
model's choice (log 21). -/
def Obligations.UnusedSelectorsAreRefused : Prop :=
  ∀ (low : BitVec 2) (a : BuildArgs) (p : List Byte) (s : State),
    exec (.selUnused low a) s = .refused .unusedSelector ∧ exec (.parseUnused7 p) s = .refused .unusedParser
end

