-- ==== Sys2Proof/Laws/State.lean ====
section
/-! SUPPORT. One lemma per field per update of the state, so that no later proof unfolds a record update. -/

namespace Sys2Proof.Machine

variable (s : State)

@[simp] theorem State.setRx_rx (rx : Receiver) : (s.setRx rx).rx = rx := rfl
@[simp] theorem State.setRx_points (rx : Receiver) : (s.setRx rx).points = s.points := rfl
@[simp] theorem State.setRx_fault (rx : Receiver) : (s.setRx rx).fault = s.fault := rfl
@[simp] theorem State.setRx_lastNow (rx : Receiver) : (s.setRx rx).lastNow = s.lastNow := rfl
@[simp] theorem State.setRx_cfg (rx : Receiver) : (s.setRx rx).cfg = s.cfg := rfl
@[simp] theorem State.setRx_out (rx : Receiver) : (s.setRx rx).out = s.out := rfl
@[simp] theorem State.setRx_ret (rx : Receiver) : (s.setRx rx).ret = s.ret := rfl
@[simp] theorem State.setRx_pending (rx : Receiver) : (s.setRx rx).pending = s.pending := rfl

@[simp] theorem State.setPoints_rx (points : List Point) : (s.setPoints points).rx = s.rx := rfl
@[simp] theorem State.setPoints_points (points : List Point) : (s.setPoints points).points = points := rfl
@[simp] theorem State.setPoints_fault (points : List Point) : (s.setPoints points).fault = s.fault := rfl
@[simp] theorem State.setPoints_lastNow (points : List Point) : (s.setPoints points).lastNow = s.lastNow := rfl
@[simp] theorem State.setPoints_cfg (points : List Point) : (s.setPoints points).cfg = s.cfg := rfl
@[simp] theorem State.setPoints_out (points : List Point) : (s.setPoints points).out = s.out := rfl
@[simp] theorem State.setPoints_ret (points : List Point) : (s.setPoints points).ret = s.ret := rfl
@[simp] theorem State.setPoints_pending (points : List Point) : (s.setPoints points).pending = s.pending := rfl

@[simp] theorem State.setLastNow_rx (now : Nat) : (s.setLastNow now).rx = s.rx := rfl
@[simp] theorem State.setLastNow_points (now : Nat) : (s.setLastNow now).points = s.points := rfl
@[simp] theorem State.setLastNow_fault (now : Nat) : (s.setLastNow now).fault = s.fault := rfl
@[simp] theorem State.setLastNow_lastNow (now : Nat) : (s.setLastNow now).lastNow = now := rfl
@[simp] theorem State.setLastNow_cfg (now : Nat) : (s.setLastNow now).cfg = s.cfg := rfl
@[simp] theorem State.setLastNow_out (now : Nat) : (s.setLastNow now).out = s.out := rfl
@[simp] theorem State.setLastNow_ret (now : Nat) : (s.setLastNow now).ret = s.ret := rfl
@[simp] theorem State.setLastNow_pending (now : Nat) : (s.setLastNow now).pending = s.pending := rfl

@[simp] theorem State.answer_rx (a : Answer) : (s.answer a).rx = s.rx := rfl
@[simp] theorem State.answer_points (a : Answer) : (s.answer a).points = s.points := rfl
@[simp] theorem State.answer_fault (a : Answer) : (s.answer a).fault = s.fault := rfl
@[simp] theorem State.answer_lastNow (a : Answer) : (s.answer a).lastNow = s.lastNow := rfl
@[simp] theorem State.answer_cfg (a : Answer) : (s.answer a).cfg = s.cfg := rfl
@[simp] theorem State.answer_out (a : Answer) : (s.answer a).out = s.out := rfl
@[simp] theorem State.answer_ret (a : Answer) : (s.answer a).ret = some a := rfl
@[simp] theorem State.answer_pending (a : Answer) : (s.answer a).pending = s.pending := rfl

@[simp] theorem State.emit_rx (events : List Event) : (s.emit events).rx = s.rx := rfl
@[simp] theorem State.emit_points (events : List Event) : (s.emit events).points = s.points := rfl
@[simp] theorem State.emit_fault (events : List Event) : (s.emit events).fault = s.fault := rfl
@[simp] theorem State.emit_lastNow (events : List Event) : (s.emit events).lastNow = s.lastNow := rfl
@[simp] theorem State.emit_cfg (events : List Event) : (s.emit events).cfg = s.cfg := rfl
@[simp] theorem State.emit_out (events : List Event) : (s.emit events).out = s.out ++ events := rfl
@[simp] theorem State.emit_ret (events : List Event) : (s.emit events).ret = s.ret := rfl
@[simp] theorem State.emit_pending (events : List Event) : (s.emit events).pending = s.pending := rfl

@[simp] theorem State.begin_rx (rest : List Input) : (s.begin rest).rx = s.rx := rfl
@[simp] theorem State.begin_points (rest : List Input) : (s.begin rest).points = s.points := rfl
@[simp] theorem State.begin_fault (rest : List Input) : (s.begin rest).fault = s.fault := rfl
@[simp] theorem State.begin_lastNow (rest : List Input) : (s.begin rest).lastNow = s.lastNow := rfl
@[simp] theorem State.begin_cfg (rest : List Input) : (s.begin rest).cfg = s.cfg := rfl
@[simp] theorem State.begin_out (rest : List Input) : (s.begin rest).out = [] := rfl
@[simp] theorem State.begin_ret (rest : List Input) : (s.begin rest).ret = s.ret := rfl
@[simp] theorem State.begin_pending (rest : List Input) : (s.begin rest).pending = rest := rfl

@[simp] theorem State.setPending_rx (rest : List Input) : (s.setPending rest).rx = s.rx := rfl
@[simp] theorem State.setPending_points (rest : List Input) : (s.setPending rest).points = s.points := rfl
@[simp] theorem State.setPending_fault (rest : List Input) : (s.setPending rest).fault = s.fault := rfl
@[simp] theorem State.setPending_lastNow (rest : List Input) : (s.setPending rest).lastNow = s.lastNow := rfl
@[simp] theorem State.setPending_cfg (rest : List Input) : (s.setPending rest).cfg = s.cfg := rfl
@[simp] theorem State.setPending_out (rest : List Input) : (s.setPending rest).out = s.out := rfl
@[simp] theorem State.setPending_ret (rest : List Input) : (s.setPending rest).ret = s.ret := rfl
@[simp] theorem State.setPending_pending (rest : List Input) : (s.setPending rest).pending = rest := rfl

@[simp] theorem State.raise_rx (r : FaultCode) : (s.raise r).rx = s.rx := rfl
@[simp] theorem State.raise_points (r : FaultCode) : (s.raise r).points = s.points := rfl
@[simp] theorem State.raise_fault (r : FaultCode) : (s.raise r).fault = some r := rfl
@[simp] theorem State.raise_lastNow (r : FaultCode) : (s.raise r).lastNow = s.lastNow := rfl
@[simp] theorem State.raise_cfg (r : FaultCode) : (s.raise r).cfg = s.cfg := rfl
@[simp] theorem State.raise_out (r : FaultCode) : (s.raise r).out = s.out := rfl
@[simp] theorem State.raise_ret (r : FaultCode) : (s.raise r).ret = s.ret := rfl
@[simp] theorem State.raise_pending (r : FaultCode) : (s.raise r).pending = s.pending := rfl

@[simp] theorem State.setRx_setRx (a b : Receiver) : (s.setRx a).setRx b = s.setRx b := rfl

@[simp] theorem State.setPoints_setPoints (a b : List Point) : (s.setPoints a).setPoints b = s.setPoints b := rfl

@[simp] theorem State.setRx_self : s.setRx s.rx = s := rfl

@[simp] theorem State.emit_nil : s.emit [] = s := by simp [State.emit]

@[simp] theorem State.emit_emit (a b : List Event) : (s.emit a).emit b = s.emit (a ++ b) := by
  simp [State.emit]

@[simp] theorem State.resetWith_points (c : Configuration) : (State.resetWith c).points = c.points.map Point.reset := rfl

@[simp] theorem State.resetWith_fault (c : Configuration) :
    (State.resetWith c).fault = if configOk c then none else some .config := rfl

@[simp] theorem State.resetWith_rx (c : Configuration) : (State.resetWith c).rx = Receiver.reset := rfl

@[simp] theorem State.resetWith_cfg (c : Configuration) : (State.resetWith c).cfg = c.block := rfl

@[simp] theorem Point.reset_conf (conf : PointConf) : (Point.reset conf).conf = conf := rfl

end Sys2Proof.Machine
end

