-- ==== Sys2Proof/Laws/Points.lean ====
section
/-! SUPPORT. What the point operations leave alone: the configuration always, the target always but for a write, and each
counter but for the operation's own. -/

namespace Sys2Proof.Machine

variable (p : Point) (now interval : Nat)

@[simp] theorem Point.rearmSet_conf : (p.rearmSet now).conf = p.conf := by unfold Point.rearmSet; split <;> rfl
@[simp] theorem Point.rearmSet_dirty : (p.rearmSet now).dirty = p.dirty := by unfold Point.rearmSet; split <;> rfl
@[simp] theorem Point.rearmSet_target : (p.rearmSet now).target = p.target := by unfold Point.rearmSet; split <;> rfl
@[simp] theorem Point.rearmSet_nextUpdate : (p.rearmSet now).nextUpdate = p.nextUpdate := by
  unfold Point.rearmSet; split <;> rfl
@[simp] theorem Point.rearmSet_getCount : (p.rearmSet now).getCount = p.getCount := by
  unfold Point.rearmSet; split <;> rfl
@[simp] theorem Point.rearmGet_conf : (p.rearmGet now).conf = p.conf := by unfold Point.rearmGet; split <;> rfl
@[simp] theorem Point.rearmGet_dirty : (p.rearmGet now).dirty = p.dirty := by unfold Point.rearmGet; split <;> rfl
@[simp] theorem Point.rearmGet_target : (p.rearmGet now).target = p.target := by unfold Point.rearmGet; split <;> rfl
@[simp] theorem Point.rearmGet_nextUpdate : (p.rearmGet now).nextUpdate = p.nextUpdate := by
  unfold Point.rearmGet; split <;> rfl
@[simp] theorem Point.rearmGet_setCount : (p.rearmGet now).setCount = p.setCount := by
  unfold Point.rearmGet; split <;> rfl

theorem Point.rearmSet_setCount :
    (p.rearmSet now).setCount = if 5 ≤ p.setCount ∧ p.nextUpdate + p.conf.retryInterval ≤ now then 0 else p.setCount := by
  unfold Point.rearmSet maxRetries; split <;> rfl

theorem Point.rearmGet_getCount :
    (p.rearmGet now).getCount = if 5 ≤ p.getCount ∧ p.nextUpdate + p.conf.retryInterval ≤ now then 0 else p.getCount := by
  unfold Point.rearmGet maxRetries; split <;> rfl

theorem Point.rearmSet_setCount_le : (p.rearmSet now).setCount ≤ p.setCount := by
  rw [Point.rearmSet_setCount]; split <;> omega

theorem Point.rearmGet_getCount_le : (p.rearmGet now).getCount ≤ p.getCount := by
  rw [Point.rearmGet_getCount]; split <;> omega

@[simp] theorem Point.isWritable_rearmSet : (p.rearmSet now).isWritable = p.isWritable := by
  simp [Point.isWritable]

@[simp] theorem Point.isReadOnly_rearmSet : (p.rearmSet now).isReadOnly = p.isReadOnly := by
  simp [Point.isReadOnly]

/-- A writable point is ready to set after its re-arm exactly when it is dirty and below five sends or past the back-off. -/
theorem Point.readyToSet_rearmSet_iff :
    (p.rearmSet now).readyToSet = true ↔
      p.dirty = true ∧ (p.setCount < 5 ∨ p.nextUpdate + p.conf.retryInterval ≤ now) := by
  simp only [Point.readyToSet, maxRetries, Point.rearmSet_dirty, Point.rearmSet_setCount, Bool.and_eq_true,
    decide_eq_true_eq]
  constructor
  · rintro ⟨h, hd⟩; refine ⟨hd, ?_⟩; split at h <;> omega
  · rintro ⟨hd, h⟩; refine ⟨?_, hd⟩; split <;> omega

/-- A point is ready to update after its re-arm exactly when it is due and below five Gets or past the back-off. -/
theorem Point.readyToUpdate_rearmGet_iff :
    (p.rearmGet now).readyToUpdate now = true ↔
      p.nextUpdate ≤ now ∧ (p.getCount < 5 ∨ p.nextUpdate + p.conf.retryInterval ≤ now) := by
  simp only [Point.readyToUpdate, maxRetries, Point.rearmGet_nextUpdate, Point.rearmGet_getCount, Bool.and_eq_true,
    decide_eq_true_eq]
  constructor
  · rintro ⟨h, hd⟩; refine ⟨hd, ?_⟩; split at h <;> omega
  · rintro ⟨hd, h⟩; refine ⟨?_, hd⟩; split <;> omega

@[simp] theorem Point.sentWrite_conf : (p.sentWrite now interval).conf = p.conf := by
  unfold Point.sentWrite; split <;> rfl
@[simp] theorem Point.sentGet_conf : p.sentGet.conf = p.conf := rfl
@[simp] theorem Point.answered_conf : (p.answered now).conf = p.conf := rfl
@[simp] theorem Point.acknowledged_conf : p.acknowledged.conf = p.conf := rfl
@[simp] theorem Point.written_conf (v : Rat) : (p.written v).conf = p.conf := rfl

end Sys2Proof.Machine
end

