-- ==== Sys2Proof/Laws/Ops.lean ====
section
/-! SUPPORT. One lemma per shared operation that says everything it can do: the checks of a request, the scan of the point
table, the dispatch of a packet, one receiver step, the arbiter. -/

namespace Sys2Proof.Machine

/-! ### The checks -/

theorem State.unlessFaulted_faulted {s : State} {r : FaultCode} (body : Result) (h : s.fault = some r) :
    s.unlessFaulted body = .next s := by
  simp [State.unlessFaulted, h]

theorem State.unlessFaulted_clear {s : State} (body : Result) (h : s.fault = none) :
    s.unlessFaulted body = body := by
  simp [State.unlessFaulted, h]

theorem State.checked_faulted {s : State} {r : FaultCode} (now : Nat) (body : Result) (h : s.fault = some r) :
    s.checked now body = .next s :=
  State.unlessFaulted_faulted _ h

theorem State.checked_late {s : State} {now : Nat} (body : Result) (h : s.fault = none) (hn : now < s.lastNow) :
    s.checked now body = .next (s.raise .time) := by
  simp [State.checked, State.unlessFaulted, h, hn]

theorem State.checked_accepted {s : State} {now : Nat} (body : Result) (h : s.fault = none) (hn : s.lastNow ≤ now) :
    s.checked now body = body := by
  simp [State.checked, State.unlessFaulted, h, Nat.not_lt.mpr hn]

/-- Everything a checked request can do: be ignored, raise F_TIME, or run its body. -/
theorem State.checked_cases (s : State) (now : Nat) (body : Result) :
    ((∃ r, s.fault = some r) ∧ s.checked now body = .next s)
      ∨ (s.fault = none ∧ now < s.lastNow ∧ s.checked now body = .next (s.raise .time))
      ∨ (s.fault = none ∧ s.lastNow ≤ now ∧ s.checked now body = body) := by
  rcases hf : s.fault with _ | r
  · rcases Nat.lt_or_ge now s.lastNow with h | h
    · exact .inr (.inl ⟨rfl, h, State.checked_late body hf h⟩)
    · exact .inr (.inr ⟨rfl, h, State.checked_accepted body hf h⟩)
  · exact .inl ⟨⟨r, rfl⟩, State.checked_faulted now body hf⟩

/-! ### The scan -/

/-- A point as a scan that passed it leaves it. -/
def passed (ofKind : Point → Bool) (rearm : Point → Point) (p : Point) : Point :=
  if ofKind p then rearm p else p

section Scan

variable (ofKind : Point → Bool) (rearm : Point → Point) (ready : Point → Bool)

theorem scan_of_missed {points : List Point} (h : ∀ q ∈ points, ofKind q = true → ready (rearm q) = false) :
    scan ofKind rearm ready points = .missed (points.map (passed ofKind rearm)) := by
  induction points with
  | nil => rfl
  | cons p rest ih =>
    have hr := ih fun q hq => h q (List.mem_cons_of_mem _ hq)
    have hp := h p List.mem_cons_self
    rcases hk : ofKind p with _ | _
    · simp [scan, hk, hr, Scan.push, passed]
    · simp [scan, hk, hp hk, hr, Scan.push, passed]

theorem scan_of_found {before : List Point} {p : Point} {after : List Point}
    (h : ∀ q ∈ before, ofKind q = true → ready (rearm q) = false) (hk : ofKind p = true)
    (hr : ready (rearm p) = true) :
    scan ofKind rearm ready (before ++ p :: after) =
      .found (before.map (passed ofKind rearm)) (rearm p) after := by
  induction before with
  | nil => simp [scan, hk, hr]
  | cons q rest ih =>
    have hi := ih fun a ha => h a (List.mem_cons_of_mem _ ha)
    have hq := h q List.mem_cons_self
    rcases hkq : ofKind q with _ | _
    · simp [scan, hkq, hi, Scan.push, passed]
    · simp [scan, hkq, hq hkq, hi, Scan.push, passed]

/-- Everything a scan can find: no point of its kind is ready, or a first one is. -/
theorem scan_cases (points : List Point) :
    ((∀ q ∈ points, ofKind q = true → ready (rearm q) = false)
        ∧ scan ofKind rearm ready points = .missed (points.map (passed ofKind rearm)))
      ∨ ∃ before p after, points = before ++ p :: after
        ∧ (∀ q ∈ before, ofKind q = true → ready (rearm q) = false)
        ∧ ofKind p = true ∧ ready (rearm p) = true
        ∧ scan ofKind rearm ready points = .found (before.map (passed ofKind rearm)) (rearm p) after := by
  by_cases h : ∃ p ∈ points, (ofKind p && ready (rearm p)) = true
  · obtain ⟨p, before, after, hb, hp, heq, -⟩ :=
      List.exists_of_eraseP (p := fun p => ofKind p && ready (rearm p)) h.choose_spec.1 h.choose_spec.2
    obtain ⟨hk, hr⟩ := Bool.and_eq_true_iff.mp hp
    have hb' : ∀ q ∈ before, ofKind q = true → ready (rearm q) = false := by
      intro q hq hkq
      have := hb q hq
      simpa [hkq] using this
    exact .inr ⟨before, p, after, heq, hb', hk, hr, heq ▸ scan_of_found ofKind rearm ready hb' hk hr⟩
  · have hm : ∀ q ∈ points, ofKind q = true → ready (rearm q) = false := by
      intro q hq hkq
      by_contra hc
      exact h ⟨q, hq, by simp [hkq, Bool.eq_true_of_not_eq_false hc]⟩
    exact .inl ⟨hm, scan_of_missed ofKind rearm ready hm⟩

end Scan

/-! ### Dispatch and delivery -/

variable (s : State) (pkt : Packet) (now : Nat)

/-- Everything a dispatch can do: update the matching points and publish, commit the matching writes, or nothing. -/
theorem State.dispatch_cases :
    s.dispatch pkt now = s.updateMatching pkt now ∨ s.dispatch pkt now = s.commitMatching pkt
      ∨ s.dispatch pkt now = s := by
  unfold State.dispatch
  split
  · exact .inl rfl
  · split
    · exact .inr (.inl rfl)
    · exact .inr (.inr rfl)

@[simp] theorem State.dispatch_rx : (s.dispatch pkt now).rx = s.rx := by
  rcases s.dispatch_cases pkt now with h | h | h <;> rw [h] <;> rfl
@[simp] theorem State.dispatch_fault : (s.dispatch pkt now).fault = s.fault := by
  rcases s.dispatch_cases pkt now with h | h | h <;> rw [h] <;> rfl
@[simp] theorem State.dispatch_lastNow : (s.dispatch pkt now).lastNow = s.lastNow := by
  rcases s.dispatch_cases pkt now with h | h | h <;> rw [h] <;> rfl
@[simp] theorem State.dispatch_cfg : (s.dispatch pkt now).cfg = s.cfg := by
  rcases s.dispatch_cases pkt now with h | h | h <;> rw [h] <;> rfl
@[simp] theorem State.dispatch_ret : (s.dispatch pkt now).ret = s.ret := by
  rcases s.dispatch_cases pkt now with h | h | h <;> rw [h] <;> rfl
@[simp] theorem State.dispatch_pending : (s.dispatch pkt now).pending = s.pending := by
  rcases s.dispatch_cases pkt now with h | h | h <;> rw [h] <;> rfl

@[simp] theorem State.deliver_rx : (s.deliver pkt now).rx = s.rx := by simp [State.deliver]
@[simp] theorem State.deliver_fault : (s.deliver pkt now).fault = s.fault := by simp [State.deliver]
@[simp] theorem State.deliver_lastNow : (s.deliver pkt now).lastNow = s.lastNow := by simp [State.deliver]
@[simp] theorem State.deliver_cfg : (s.deliver pkt now).cfg = s.cfg := by simp [State.deliver]
@[simp] theorem State.deliver_ret : (s.deliver pkt now).ret = s.ret := by simp [State.deliver]
@[simp] theorem State.deliver_pending : (s.deliver pkt now).pending = s.pending := by simp [State.deliver]

/-- A delivery treats each point alone: it is left, answered, or acknowledged. -/
theorem State.deliver_points_eq_map :
    ∃ f : Point → Point, (s.deliver pkt now).points = s.points.map f
      ∧ ∀ p, f p = p ∨ f p = p.answered now ∨ (p.isWritable = true ∧ f p = p.acknowledged) := by
  rcases (s.emit [.packet pkt]).dispatch_cases pkt now with h | h | h
  · refine ⟨fun p => if p.matchesField pkt.field then p.answered now else p, by simp [State.deliver, h, State.updateMatching], ?_⟩
    intro p; dsimp only; split <;> simp
  · refine ⟨fun p => if p.isWritable && p.matchesField pkt.field then p.acknowledged else p,
      by simp [State.deliver, h, State.commitMatching], ?_⟩
    intro p; dsimp only; split
    · rename_i hp; simp at hp; simp [hp.1]
    · simp
  · exact ⟨id, by simp [State.deliver, h], fun p => .inl rfl⟩

/-- Delivery commutes with writing the receiver registers, which it neither reads nor writes. -/
theorem State.deliver_setRx (rx : Receiver) : (s.setRx rx).deliver pkt now = (s.deliver pkt now).setRx rx := by
  unfold State.deliver State.dispatch
  split
  · rfl
  · split <;> rfl

theorem State.valueEvents_eq (i : Nat) (points : List Point) :
    valueEvents pkt i points = (points.zipIdx i).filterMap fun e =>
      if e.1.conf.fieldId = pkt.field then
        some (.value e.2 (decodeValue e.1.conf.encoding pkt.payload).1 (decodeValue e.1.conf.encoding pkt.payload).2)
      else none := by
  induction points generalizing i with
  | nil => rfl
  | cons p rest ih =>
    by_cases h : p.conf.fieldId = pkt.field <;> simp [valueEvents, Point.matchesField, List.zipIdx_cons, h, ih]

/-! ### The receiver -/

/-- The receiver step in every state but `Crc1`, as a function of the registers. -/
def Receiver.advance (r : Receiver) (b : Byte) : Receiver :=
  match r.state with
  | .start => r.onStart b
  | .sourceAddr => r.onSourceAddr b
  | .destAddr => r.onDestAddr b
  | .length => r.onLength b
  | .command => r.onCommand b
  | .field0 => r.onField b .field1
  | .field1 => r.onField b .field2
  | .field2 => r.onField b .field3
  | .field3 => r.onField3 b
  | .payload => r.onPayload b
  | .crc0 => r.onCrc0 b
  | .crc1 => (r.onCrc1 b).resync

theorem State.rxStep_of_ne_crc1 (b : Byte) (h : s.rx.state ≠ .crc1) :
    s.rxStep b now = s.setRx (s.rx.advance b) := by
  unfold State.rxStep Receiver.advance
  split <;> simp_all

/-- Everything one receiver step can do: the registers advance, and in `Crc1` a valid frame is delivered. -/
theorem State.rxStep_eq (b : Byte) :
    s.rxStep b now =
      if s.rx.state = .crc1 ∧ (s.rx.onCrc1 b).valid = true then
        (s.deliver ((s.rx.onCrc1 b).frame.toPacket (s.rx.onCrc1 b).cmd) now).setRx (s.rx.advance b)
      else s.setRx (s.rx.advance b) := by
  by_cases h : s.rx.state = .crc1
  · have ha : s.rx.advance b = (s.rx.onCrc1 b).resync := by unfold Receiver.advance; simp [h]
    have hs : s.rxStep b now = s.completeFrame (s.rx.onCrc1 b) now := by unfold State.rxStep; simp [h]
    rw [hs, ha]
    unfold State.completeFrame
    by_cases hv : (s.rx.onCrc1 b).valid = true
    · simp [h, hv, State.deliver_setRx]
    · simp [h, hv]
  · simp [h, State.rxStep_of_ne_crc1 s now b h]

@[simp] theorem State.rxStep_rx (b : Byte) : (s.rxStep b now).rx = s.rx.advance b := by
  rw [State.rxStep_eq]; split <;> rfl
@[simp] theorem State.rxStep_fault (b : Byte) : (s.rxStep b now).fault = s.fault := by
  rw [State.rxStep_eq]; split <;> simp
@[simp] theorem State.rxStep_lastNow (b : Byte) : (s.rxStep b now).lastNow = s.lastNow := by
  rw [State.rxStep_eq]; split <;> simp
@[simp] theorem State.rxStep_cfg (b : Byte) : (s.rxStep b now).cfg = s.cfg := by
  rw [State.rxStep_eq]; split <;> simp
@[simp] theorem State.rxStep_pending (b : Byte) : (s.rxStep b now).pending = s.pending := by
  rw [State.rxStep_eq]; split <;> simp

theorem execFeed_accepted {s : State} {now : Nat} (raw : Byte) (h : s.fault = none) (hn : s.lastNow ≤ now) :
    execFeed now raw s = .next ((s.setLastNow now).rxStep (invertByte raw) now) :=
  State.checked_accepted _ h hn

/-! ### The arbiter -/

theorem State.arbitrate_write {s : State} {now : Nat} {before : List Point} {p : Point} {after : List Point}
    (h : scanWrites now s.points = .found before p after) :
    s.arbitrate now = s.sendWrite now before p after := by
  simp [State.arbitrate, h]

theorem State.arbitrate_writablePoll {s : State} {now : Nat} {ps before : List Point} {p : Point} {after : List Point}
    (h1 : scanWrites now s.points = .missed ps) (h2 : scanWritablePolls now ps = .found before p after) :
    s.arbitrate now = .next (s.sendGet before p after) := by
  simp [State.arbitrate, h1, h2]

theorem State.arbitrate_sensorPoll {s : State} {now : Nat} {ps qs before : List Point} {p : Point} {after : List Point}
    (h1 : scanWrites now s.points = .missed ps) (h2 : scanWritablePolls now ps = .missed qs)
    (h3 : scanSensorPolls now qs = .found before p after) :
    s.arbitrate now = .next (s.sendGet before p after) := by
  simp [State.arbitrate, h1, h2, h3]

theorem State.arbitrate_none {s : State} {now : Nat} {ps qs rs : List Point}
    (h1 : scanWrites now s.points = .missed ps) (h2 : scanWritablePolls now ps = .missed qs)
    (h3 : scanSensorPolls now qs = .missed rs) :
    s.arbitrate now = .next (s.setPoints rs) := by
  simp [State.arbitrate, h1, h2, h3]

/-- Everything `do_set` can do. -/
theorem State.sendWrite_cases (before : List Point) (p : Point) (after : List Point) :
    (p.target = none ∧ s.sendWrite now before p after = .fault .noTarget)
      ∨ ∃ v, p.target = some v ∧
        ((∃ q, build (builderSelector p.conf) (s.buildArgs p v) = .packet q
            ∧ s.sendWrite now before p after =
              .next ((s.setPoints (before ++ p.sentWrite now s.cfg.postSetPollInterval :: after)).transmit q))
          ∨ (build (builderSelector p.conf) (s.buildArgs p v) = .noPacket
            ∧ s.sendWrite now before p after =
              .next (s.setPoints (before ++ p.sentWrite now s.cfg.postSetPollInterval :: after)))
          ∨ (build (builderSelector p.conf) (s.buildArgs p v) = .unused
            ∧ s.sendWrite now before p after = .refused .unusedSelector)) := by
  rcases ht : p.target with _ | v
  · exact .inl ⟨rfl, by simp [State.sendWrite, ht]⟩
  · refine .inr ⟨v, rfl, ?_⟩
    rcases hb : build (builderSelector p.conf) (s.buildArgs p v) with q | _ | _ <;> simp [State.sendWrite, ht, hb]

end Sys2Proof.Machine
end

