-- ==== Sys2Proof/Laws/Commands.lean ====
section
/-! SUPPORT. The thirteen frame rows as one: a function of the row of a command byte that agrees arm by arm with a function
of the byte is that function of the byte. -/

namespace Sys2Proof

/-- Elimination of `instrOfCommand`: the thirteen arms suffice for every command byte. -/
theorem instrOfCommand_apply {α : Sort _} (g : Instr → α) (h : Byte → α) (f : Frame)
    (h00 : g (.cmdNone f) = h 0x00) (h01 : g (.cmdOpaque01 f) = h 0x01) (h02 : g (.cmdInf f) = h 0x02)
    (h03 : g (.cmdSet f) = h 0x03) (h04 : g (.cmdAck f) = h 0x04) (h05 : g (.cmdNack f) = h 0x05)
    (h06 : g (.cmdGet f) = h 0x06) (h07 : g (.cmdRet f) = h 0x07)
    (h08 : ∀ low, g (.cmdOpaque08 low f) = h (opaqueCommand 0x08 low))
    (h10 : ∀ low, g (.cmdOpaque10 low f) = h (opaqueCommand 0x10 low))
    (h20 : ∀ low, g (.cmdOpaque20 low f) = h (opaqueCommand 0x20 low))
    (h40 : ∀ low, g (.cmdOpaque40 low f) = h (opaqueCommand 0x40 low))
    (h80 : ∀ low, g (.cmdOpaque80 low f) = h (opaqueCommand 0x80 low)) (cmd : Byte) :
    g (instrOfCommand cmd f) = h cmd := by
  have k08 : ∀ c : Byte, c &&& 0xF8 = 0x08 → opaqueCommand 0x08 (c.extractLsb' 0 3) = c := by decide +kernel
  have k10 : ∀ c : Byte, c &&& 0xF0 = 0x10 → opaqueCommand 0x10 (c.extractLsb' 0 4) = c := by decide +kernel
  have k20 : ∀ c : Byte, c &&& 0xE0 = 0x20 → opaqueCommand 0x20 (c.extractLsb' 0 5) = c := by decide +kernel
  have k40 : ∀ c : Byte, c &&& 0xC0 = 0x40 → opaqueCommand 0x40 (c.extractLsb' 0 6) = c := by decide +kernel
  have k80 : ∀ c : Byte, c = 0 ∨ c = 1 ∨ c = 2 ∨ c = 3 ∨ c = 4 ∨ c = 5 ∨ c = 6 ∨ c = 7 ∨ c &&& 0xF8 = 0x08 ∨
      c &&& 0xF0 = 0x10 ∨ c &&& 0xE0 = 0x20 ∨ c &&& 0xC0 = 0x40 ∨ opaqueCommand 0x80 (c.extractLsb' 0 7) = c := by
    decide +kernel
  unfold instrOfCommand
  by_cases e0 : cmd = 0x00
  · rw [if_pos e0, h00, e0]
  rw [if_neg e0]
  by_cases e1 : cmd = 0x01
  · rw [if_pos e1, h01, e1]
  rw [if_neg e1]
  by_cases e2 : cmd = 0x02
  · rw [if_pos e2, h02, e2]
  rw [if_neg e2]
  by_cases e3 : cmd = 0x03
  · rw [if_pos e3, h03, e3]
  rw [if_neg e3]
  by_cases e4 : cmd = 0x04
  · rw [if_pos e4, h04, e4]
  rw [if_neg e4]
  by_cases e5 : cmd = 0x05
  · rw [if_pos e5, h05, e5]
  rw [if_neg e5]
  by_cases e6 : cmd = 0x06
  · rw [if_pos e6, h06, e6]
  rw [if_neg e6]
  by_cases e7 : cmd = 0x07
  · rw [if_pos e7, h07, e7]
  rw [if_neg e7]
  by_cases e8 : cmd &&& 0xF8 = 0x08
  · rw [if_pos e8, h08, k08 _ e8]
  rw [if_neg e8]
  by_cases e9 : cmd &&& 0xF0 = 0x10
  · rw [if_pos e9, h10, k10 _ e9]
  rw [if_neg e9]
  by_cases e10 : cmd &&& 0xE0 = 0x20
  · rw [if_pos e10, h20, k20 _ e10]
  rw [if_neg e10]
  by_cases e11 : cmd &&& 0xC0 = 0x40
  · rw [if_pos e11, h40, k40 _ e11]
  rw [if_neg e11]
  have hc := k80 cmd
  simp only [e0, e1, e2, e3, e4, e5, e6, e7, e8, e9, e10, e11, false_or] at hc
  rw [h80, hc]

namespace Machine

/-- Every frame row runs the one delivery operation on its own command byte. -/
theorem exec_instrOfCommand (cmd : Byte) (f : Frame) (s : State) :
    exec (instrOfCommand cmd f) s = deliverFrame cmd f s :=
  instrOfCommand_apply (fun i => exec i s) (fun c => deliverFrame c f s) f rfl rfl rfl rfl rfl rfl rfl rfl
    (fun _ => rfl) (fun _ => rfl) (fun _ => rfl) (fun _ => rfl) (fun _ => rfl) cmd

/-- Everything a delivered frame can do: nothing once faulted, else the delivery at `S.last_now`. -/
theorem deliverFrame_cases (cmd : Byte) (f : Frame) (s : State) :
    ((∃ r, s.fault = some r) ∧ deliverFrame cmd f s = .next s)
      ∨ (s.fault = none ∧ deliverFrame cmd f s = .next (s.deliver (f.toPacket cmd) s.lastNow)) := by
  rcases h : s.fault with _ | r
  · exact .inr ⟨rfl, State.unlessFaulted_clear _ h⟩
  · exact .inl ⟨⟨r, rfl⟩, State.unlessFaulted_faulted _ h⟩

end Machine

/-- The row of a command byte is well formed exactly when the frame is valid under that byte. -/
theorem wf_instrOfCommand (cmd : Byte) (f : Frame) : (instrOfCommand cmd f).wf = f.wf cmd :=
  instrOfCommand_apply Instr.wf (fun c => f.wf c) f rfl rfl rfl rfl rfl rfl rfl rfl
    (fun _ => rfl) (fun _ => rfl) (fun _ => rfl) (fun _ => rfl) (fun _ => rfl) cmd

end Sys2Proof
end

