-- ==== Sys2Proof/Laws/Effects.lean ====
section
/-! SUPPORT. What an operation can do, said once: a TICK point by point, and every instruction's next state as one of seven
effects. -/

namespace Sys2Proof.Machine

theorem Point.isWritable_iff (p : Point) : p.isWritable = true ↔ p.conf.kind = .writable := by
  simp [Point.isWritable]

theorem Point.isReadOnly_iff (p : Point) : p.isReadOnly = true ↔ p.conf.kind = .readOnly := by
  simp [Point.isReadOnly]

/-- What one TICK may do to a point: nothing, a re-arm as a scan passed it, or the bookkeeping of the one send
    (R180 to R190). -/
inductive Point.Ticked (now iv : Nat) (p : Point) : Point → Prop
  | same : Point.Ticked now iv p p
  | setRearmed : Point.Ticked now iv p (p.rearmSet now)
  | getRearmed : Point.Ticked now iv p (p.rearmGet now)
  | bothRearmed : p.isWritable = true → Point.Ticked now iv p ((p.rearmSet now).rearmGet now)
  | wrote : p.isWritable = true → (p.rearmSet now).readyToSet = true
      → Point.Ticked now iv p ((p.rearmSet now).sentWrite now iv)
  | polledWritable : p.isWritable = true → ((p.rearmSet now).rearmGet now).readyToUpdate now = true
      → Point.Ticked now iv p ((p.rearmSet now).rearmGet now).sentGet
  | polledSensor : p.isReadOnly = true → (p.rearmGet now).readyToUpdate now = true
      → Point.Ticked now iv p (p.rearmGet now).sentGet

/-- A point-by-point change of the table. -/
theorem forall2_ticked_map (now iv : Nat) (l : List Point) (f : Point
    → Point) (h : ∀ p, Point.Ticked now iv p (f p)) : List.Forall₂ (Point.Ticked now iv) l (l.map f) := by
  rw [List.forall₂_map_right_iff]; exact List.forall₂_same.mpr fun p _ => h p

/-- A pointwise relation around one point. -/
theorem forall2_middle {R : Point → Point → Prop} {l l' r r' : List Point} {p q : Point} (h1 : List.Forall₂ R l l')
    (h2 : R p q) (h3 : List.Forall₂ R r r') : List.Forall₂ R (l ++ p :: r) (l' ++ q :: r') := by
  exact List.rel_append h1 (.cons h2 h3)

/-- A point step 1's scan passed. -/
theorem ticked_setScan (now iv : Nat) (p : Point) : Point.Ticked now iv p (passed Point.isWritable
    (Point.rearmSet now) p) := by
  unfold passed; split
  · exact .setRearmed
  · exact .same
/-- A point step 2's scan passed. -/
theorem ticked_getScan (now iv : Nat) (p : Point) : Point.Ticked now iv p (passed Point.isWritable (Point.rearmGet now)
    (passed Point.isWritable (Point.rearmSet now) p)) := by
  by_cases h : p.isWritable = true
  · rw [show passed Point.isWritable (Point.rearmSet now) p = p.rearmSet now from if_pos h, passed,
      Point.isWritable_rearmSet, if_pos h]; exact .bothRearmed h
  · rw [show passed Point.isWritable (Point.rearmSet now) p = p from if_neg h, passed, if_neg h]; exact .same
/-- The two kinds exclude each other. -/
theorem isReadOnly_iff_not_writable (p : Point) : p.isReadOnly = true ↔ ¬ p.isWritable = true := by
  rw [Point.isWritable_iff, Point.isReadOnly_iff]; cases p.conf.kind <;> simp
/-- A point step 3's scan passed. -/
theorem ticked_sensorScan (now iv : Nat) (p : Point) : Point.Ticked now iv p (passed Point.isReadOnly
    (Point.rearmGet now) (passed Point.isWritable (Point.rearmGet now) (passed Point.isWritable
        (Point.rearmSet now) p))) := by
  by_cases h : p.isWritable = true
  · have hr : ¬ p.isReadOnly = true := by rw [isReadOnly_iff_not_writable]; simp [h]
    rw [show passed Point.isWritable (Point.rearmSet now) p = p.rearmSet now from if_pos h, show passed Point.isWritable
        (Point.rearmGet now) (p.rearmSet now) = (p.rearmSet now).rearmGet now from if_pos
            (by simpa using h), passed, if_neg (by simpa [Point.isReadOnly] using hr)]; exact .bothRearmed h
  · have hr : p.isReadOnly = true := by rw [isReadOnly_iff_not_writable]; exact h
    rw [show passed Point.isWritable (Point.rearmSet now) p = p from if_neg h, show passed Point.isWritable
        (Point.rearmGet now) p = p from if_neg h, passed, if_pos hr]; exact .getRearmed

/-- Everything the arbiter can leave: each point ticked, at most one transmission (R180, R191). -/
theorem State.arbitrate_cases (s : State) (now : Nat) (t : State) (h : s.arbitrate now = .next t) :
   ∃ ps evs, t = { s with points := ps, out := s.out ++ evs }
       ∧ List.Forall₂ (Point.Ticked now s.cfg.postSetPollInterval) s.points ps ∧ (evs = [] ∨ ∃ b, evs = [.tx b]) := by
  rcases scan_cases Point.isWritable (Point.rearmSet now) Point.readyToSet s.points with ⟨-, h1⟩ |
      ⟨before, p, after, hp, -, hk, hr, hf⟩
  · rcases scan_cases Point.isWritable (Point.rearmGet now) (Point.readyToUpdate now) (s.points.map
      (passed Point.isWritable (Point.rearmSet now))) with ⟨-, h2⟩ | ⟨before, p, after, hp, -, hk, hr, hf⟩
    · rcases scan_cases Point.isReadOnly (Point.rearmGet now) (Point.readyToUpdate now) ((s.points.map
        (passed Point.isWritable (Point.rearmSet now))).map (passed Point.isWritable (Point.rearmGet now))) with
            ⟨-, h3⟩ | ⟨before, p, after, hp, -, hk, hr, hf⟩
      · rw [State.arbitrate_none (s := s) h1 h2 h3] at h
        injection h with h; subst h
        refine ⟨((s.points.map (passed Point.isWritable (Point.rearmSet now))).map (passed Point.isWritable
            (Point.rearmGet now))).map (passed Point.isReadOnly (Point.rearmGet now)), [], ?_, ?_, .inl rfl⟩
        · rw [List.append_nil]; rfl
        · rw [List.map_map, List.map_map]; exact forall2_ticked_map _ _ _ _ fun p => ticked_sensorScan now _ p
      · rw [State.arbitrate_sensorPoll (s := s) h1 h2 hf] at h
        injection h with h; subst h
        refine ⟨_, [_], rfl, ?_, .inr ⟨_, rfl⟩⟩
        rw [List.map_map] at hp
        obtain ⟨b, rest, hb, rfl, hm⟩ := List.map_eq_append_iff.mp hp
        obtain ⟨q, a, rfl, rfl, rfl⟩ := List.map_eq_cons_iff.mp hm
        rw [hb]
        refine forall2_middle ?_ ?_ ?_
        · rw [List.map_map]; exact forall2_ticked_map _ _ _ _ fun p => ticked_sensorScan now _ p
        · have hq : ¬ q.isWritable = true := by
            intro hc
            have := (isReadOnly_iff_not_writable _).mp hk
            apply this
            simp only [Function.comp, passed, hc, if_true, Point.isWritable_rearmSet]; simp [Point.isWritable] at hc ⊢;
                exact hc
          have e : (passed Point.isWritable (Point.rearmGet now) ∘ passed Point.isWritable (Point.rearmSet now)) q = q := by
            simp [Function.comp, passed, hq]
          rw [e] at hr hk ⊢
          exact .polledSensor hk hr
        · exact forall2_ticked_map _ _ _ _ fun p => ticked_getScan now _ p
    · rw [State.arbitrate_writablePoll (s := s) h1 hf] at h
      injection h with h; subst h
      refine ⟨_, [_], rfl, ?_, .inr ⟨_, rfl⟩⟩
      obtain ⟨b, rest, hb, rfl, hm⟩ := List.map_eq_append_iff.mp hp
      obtain ⟨q, a, rfl, rfl, rfl⟩ := List.map_eq_cons_iff.mp hm
      rw [hb]
      refine forall2_middle ?_ ?_ ?_
      · rw [List.map_map]; exact forall2_ticked_map _ _ _ _ fun p => ticked_getScan now _ p
      · have hq : q.isWritable = true := by
          by_contra hc
          rw [show passed Point.isWritable (Point.rearmSet now) q = q from if_neg hc] at hk; exact hc hk
        rw [show passed Point.isWritable (Point.rearmSet now) q = q.rearmSet now from if_pos hq] at hr ⊢
        exact .polledWritable hq hr
      · exact forall2_ticked_map _ _ _ _ fun p => ticked_setScan now _ p
  · rw [State.arbitrate_write (s := s) hf] at h
    have hpt : List.Forall₂ (Point.Ticked now s.cfg.postSetPollInterval) s.points (before.map (passed Point.isWritable
        (Point.rearmSet now)) ++ (p.rearmSet now).sentWrite now s.cfg.postSetPollInterval :: after) := by
      rw [hp]
      exact forall2_middle (forall2_ticked_map _ _ _ _ fun p => ticked_setScan now _ p) (.wrote hk hr)
          (List.forall₂_same.mpr fun _ _ => .same)
    rcases State.sendWrite_cases s (now := now) (before.map (passed Point.isWritable (Point.rearmSet now)))
        (p.rearmSet now) after with ⟨-, e⟩ | ⟨v, -, ⟨q, -, e⟩ | ⟨-, e⟩ | ⟨-, e⟩⟩
    · rw [e] at h; cases h
    · rw [e] at h; injection h with h; subst h
      exact ⟨_, [_], rfl, hpt, .inr ⟨_, rfl⟩⟩
    · rw [e] at h; injection h with h; subst h
      exact ⟨_, [], by rw [List.append_nil]; rfl, hpt, .inl rfl⟩
    · rw [e] at h; cases h

/-- A TICK keeps a point's configuration and target, and makes no point dirty. -/
theorem Point.Ticked.keeps {now iv p q} (h : Point.Ticked now iv p q) : q.conf = p.conf ∧ q.target = p.target
    ∧ (q.dirty = true → p.dirty = true) := by
  cases h <;> simp [Point.sentGet, Point.sentWrite, Point.sentBroadcast, Point.sentUnicast]
  split <;> simp

/-- The effects of an instruction that answers a next state: nothing, a sticky fault, a return value, a receiver step,
    a TICK, a
write, a delivered frame. -/
inductive Effect (i : Instr) (s : State) : State → Prop
  | same : Effect i s s
  | raise (r) : s.fault = none → r ≠ .config → Effect i s (s.raise r)
  | answer (a) : (∀ now, i ≠ .tick now) → Effect i s (s.answer a)
  | feed (now raw) : i = .feed now raw → s.Accepts now → Effect i s ((s.setLastNow now).rxStep (invertByte raw) now)
  | tick (now ps evs) : i = .tick now → s.Accepts now → List.Forall₂
      (Point.Ticked now s.cfg.postSetPollInterval) s.points ps → (evs = [] ∨ ∃ b, evs = [.tx b]) →
       Effect i s { s with lastNow := now, points := ps, out := s.out ++ evs }
  | write (now k v p) : i = .write now k v → s.Accepts now → s.points[k]? = some p → p.conf.kind = .writable
      → inDomain p.conf.encoding v = true →
       Effect i s { s with lastNow := now, points := s.points.set k (p.written v) }
  | deliver (cmd : Byte) (f : Frame) : (∀ now, i ≠ .tick now) → (∀ now raw, i ≠ .feed now raw) → s.fault = none
      → Effect i s (s.deliver (f.toPacket cmd) s.lastNow)

/-- A delivered frame's effect. -/
theorem effect_of_deliverFrame (cmd : Byte) (f : Frame) (i s t) (h : deliverFrame cmd f s = .next t) (hi :
    (∀ now, i ≠ .tick now) ∧ (∀ now raw, i ≠ .feed now raw)) : Effect i s t := by
  rcases deliverFrame_cases cmd f s with ⟨-, e⟩ | ⟨hf, e⟩
  · rw [e] at h; injection h with h; subst h; exact .same
  · rw [e] at h; injection h with h; subst h; exact .deliver _ _ hi.1 hi.2 hf

/-- The effect of a checked request from that of its body. -/
theorem effect_of_checked (i : Instr) (s t : State) (now : Nat) (body : Result) (h : s.checked now body = .next t)
   (hb : s.fault = none → s.lastNow ≤ now → body = .next t → Effect i s t) : Effect i s t := by
  rcases State.checked_cases s now body with ⟨-, e⟩ | ⟨hf, -, e⟩ | ⟨hf, hn, e⟩ <;> rw [e] at h
  · injection h with h; subst h; exact .same
  · injection h with h; subst h; exact .raise _ hf (by simp)
  · exact hb hf hn h

/-- Every next state of an instruction is one of the effects. -/
theorem effect_of_exec (i : Instr) (s t : State) (h : exec i s = .next t) : Effect i s t := by
  cases i with
  | feed now raw =>
    change execFeed now raw s = _ at h
    rcases State.checked_cases s now (.next ((s.setLastNow now).rxStep (invertByte raw) now)) with ⟨-, e⟩ | ⟨hf, -, e⟩ |
        ⟨hf, hn, e⟩ <;>
      rw [execFeed, e] at h <;> injection h with h <;> subst h
    · exact .same
    · exact .raise _ hf (by simp)
    · exact .feed _ _ rfl ⟨hf, hn⟩
  | tick now =>
    change execTick now s = _ at h
    rcases State.checked_cases s now ((s.setLastNow now).arbitrate now) with ⟨-, e⟩ | ⟨hf, -, e⟩ | ⟨hf, hn, e⟩ <;>
      rw [execTick, e] at h
    · injection h with h; subst h; exact .same
    · injection h with h; subst h; exact .raise _ hf (by simp)
    · obtain ⟨ps, evs, rfl, hF, he⟩ := State.arbitrate_cases _ _ _ h
      exact .tick now ps evs rfl ⟨hf, hn⟩ hF he
  | write now k v =>
    change execWrite now k v s = _ at h
    refine effect_of_checked _ _ _ now _ h fun hf hn h => ?_
    rcases hp : s.points[k]? with _ | p <;> simp only [hp] at h
    · injection h with h; subst h; exact .raise _ hf (by simp)
    · split at h
      · injection h with h; subst h; exact .raise _ hf (by simp)
      · split at h
        · injection h with h; subst h; exact .raise _ hf (by simp)
        · rename_i h1 h2
          injection h with h; subst h
          exact .write now k v p rfl ⟨hf, hn⟩ hp (by simpa using h1) (by simpa using h2)
  | reservedOp now o =>
    change s.unlessFaulted (.next (s.raise .op)) = _ at h
    rcases hf : s.fault with _ | r
    · rw [State.unlessFaulted_clear _ hf] at h; injection h with h; subst h; exact .raise _ hf (by simp)
    · rw [State.unlessFaulted_faulted _ hf] at h; injection h with h; subst h; exact .same
  | selUnused l a => cases h
  | parseUnused7 p => cases h
  | _ => 
    first
    | exact effect_of_deliverFrame _ _ _ s t h ⟨fun _ => nofun, fun _ _ => nofun⟩
    | (refine (show ∃ a, t = s.answer a from ?_).elim fun a h => h ▸ Effect.answer a (fun _ => nofun)
       injection h with h; exact ⟨_, h.symm⟩)

end Sys2Proof.Machine
end

