-- ==== Sys2Proof/Laws/PerInstr.lean ====
section
/-! SUPPORT. Per-instruction lemmas: the encoded form of an instruction fits its own row of the opcode table. -/

namespace Sys2Proof.Laws

/-- Byte 4 of a completed frame is its command byte (30_encoding.md R70). -/
theorem selector_encodeFrame (cmd : Byte) (f : Frame) : (Code.frame (encodeFrame cmd f)).selector = cmd := by
  rfl

namespace EncodesItsRow

/-- The encoded form has the row's format, and the row's fixed bits at the row's pattern. -/
def Statement (i : Instr) : Prop := i.row.fits (encode i) = true

/-- An exact command row: the mask takes every bit. -/
theorem of_command (cmd : Byte) (f : Frame) : (Row.mk .command 0xFF cmd).fits (.frame (encodeFrame cmd f)) = true := by
  have h : cmd &&& 0xFF = cmd := BitVec.and_allOnes
  simpa [Row.fits, Code.format, selector_encodeFrame] using h

theorem cmdNone (f : Frame) : Statement (.cmdNone f) := of_command _ f

theorem cmdOpaque01 (f : Frame) : Statement (.cmdOpaque01 f) := of_command _ f

theorem cmdInf (f : Frame) : Statement (.cmdInf f) := of_command _ f

theorem cmdSet (f : Frame) : Statement (.cmdSet f) := of_command _ f

theorem cmdAck (f : Frame) : Statement (.cmdAck f) := of_command _ f

theorem cmdNack (f : Frame) : Statement (.cmdNack f) := of_command _ f

theorem cmdGet (f : Frame) : Statement (.cmdGet f) := of_command _ f

theorem cmdRet (f : Frame) : Statement (.cmdRet f) := of_command _ f

theorem cmdOpaque08 (low : BitVec 3) (f : Frame) : Statement (.cmdOpaque08 low f) := by
  simp only [Statement, Row.fits, Instr.row, encode, Code.format, selector_encodeFrame]
  revert low; decide +kernel

theorem cmdOpaque10 (low : BitVec 4) (f : Frame) : Statement (.cmdOpaque10 low f) := by
  simp only [Statement, Row.fits, Instr.row, encode, Code.format, selector_encodeFrame]
  revert low; decide +kernel

theorem cmdOpaque20 (low : BitVec 5) (f : Frame) : Statement (.cmdOpaque20 low f) := by
  simp only [Statement, Row.fits, Instr.row, encode, Code.format, selector_encodeFrame]
  revert low; decide +kernel

theorem cmdOpaque40 (low : BitVec 6) (f : Frame) : Statement (.cmdOpaque40 low f) := by
  simp only [Statement, Row.fits, Instr.row, encode, Code.format, selector_encodeFrame]
  revert low; decide +kernel

theorem cmdOpaque80 (low : BitVec 7) (f : Frame) : Statement (.cmdOpaque80 low f) := by
  simp only [Statement, Row.fits, Instr.row, encode, Code.format, selector_encodeFrame]
  revert low; decide +kernel

theorem feed (now : Nat) (raw : Byte) : Statement (.feed now raw) := by
  simp [Statement, Row.fits, Instr.row, encode, Code.format, Code.selector]

theorem tick (now : Nat) : Statement (.tick now) := by
  simp [Statement, Row.fits, Instr.row, encode, Code.format, Code.selector]

theorem write (now : Nat) (point : Nat) (value : Rat) : Statement (.write now point value) := by
  simp [Statement, Row.fits, Instr.row, encode, Code.format, Code.selector]

theorem reservedOp (now : Nat) (operand : Operand) : Statement (.reservedOp now operand) := by
  simp [Statement, Row.fits, Instr.row, encode, Code.format, Code.selector]

theorem setU8 (a : BuildArgs) : Statement (.setU8 a) := by
  simp [Statement, Row.fits, Instr.row, encode, Code.format, Code.selector]

theorem infU8 (a : BuildArgs) : Statement (.infU8 a) := by
  simp [Statement, Row.fits, Instr.row, encode, Code.format, Code.selector]

theorem setI8 (a : BuildArgs) : Statement (.setI8 a) := by
  simp [Statement, Row.fits, Instr.row, encode, Code.format, Code.selector]

theorem infI8 (a : BuildArgs) : Statement (.infI8 a) := by
  simp [Statement, Row.fits, Instr.row, encode, Code.format, Code.selector]

theorem setI16 (a : BuildArgs) : Statement (.setI16 a) := by
  simp [Statement, Row.fits, Instr.row, encode, Code.format, Code.selector]

theorem infI16 (a : BuildArgs) : Statement (.infI16 a) := by
  simp [Statement, Row.fits, Instr.row, encode, Code.format, Code.selector]

theorem setI32 (a : BuildArgs) : Statement (.setI32 a) := by
  simp [Statement, Row.fits, Instr.row, encode, Code.format, Code.selector]

theorem infI32 (a : BuildArgs) : Statement (.infI32 a) := by
  simp [Statement, Row.fits, Instr.row, encode, Code.format, Code.selector]

theorem setTemp (a : BuildArgs) : Statement (.setTemp a) := by
  simp [Statement, Row.fits, Instr.row, encode, Code.format, Code.selector]

theorem infTemp (a : BuildArgs) : Statement (.infTemp a) := by
  simp [Statement, Row.fits, Instr.row, encode, Code.format, Code.selector]

theorem setRoomTemp (a : BuildArgs) : Statement (.setRoomTemp a) := by
  simp [Statement, Row.fits, Instr.row, encode, Code.format, Code.selector]

theorem infRoomTemp (a : BuildArgs) : Statement (.infRoomTemp a) := by
  simp [Statement, Row.fits, Instr.row, encode, Code.format, Code.selector]

theorem selUnused (low : BitVec 2) (a : BuildArgs) : Statement (.selUnused low a) := by
  revert low; intro low
  have h : ∀ low : BitVec 2, (((0b11#2 ++ low).zeroExtend 8 : Byte) &&& 0b1100 == (0b1100 : Byte)) = true := by decide
  simpa [Statement, Row.fits, Instr.row, encode, Code.format, Code.selector] using h low

theorem buildGet (e : BitVec 3) (src : BusAddr) (dst : Byte) (field : FieldId) : Statement (.buildGet e src dst field) := by
  simp [Statement, Row.fits, Instr.row, encode, Code.format, Code.selector]

theorem parseU8 (p : List Byte) : Statement (.parseU8 p) := by
  simp [Statement, Row.fits, Instr.row, encode, Code.format, Code.selector]

theorem parseI8 (p : List Byte) : Statement (.parseI8 p) := by
  simp [Statement, Row.fits, Instr.row, encode, Code.format, Code.selector]

theorem parseI16 (p : List Byte) : Statement (.parseI16 p) := by
  simp [Statement, Row.fits, Instr.row, encode, Code.format, Code.selector]

theorem parseI32 (p : List Byte) : Statement (.parseI32 p) := by
  simp [Statement, Row.fits, Instr.row, encode, Code.format, Code.selector]

theorem parseTemp (p : List Byte) : Statement (.parseTemp p) := by
  simp [Statement, Row.fits, Instr.row, encode, Code.format, Code.selector]

theorem parseRoomTemp (p : List Byte) : Statement (.parseRoomTemp p) := by
  simp [Statement, Row.fits, Instr.row, encode, Code.format, Code.selector]

theorem parseText (p : List Byte) : Statement (.parseText p) := by
  simp [Statement, Row.fits, Instr.row, encode, Code.format, Code.selector]

theorem parseUnused7 (p : List Byte) : Statement (.parseUnused7 p) := by
  simp [Statement, Row.fits, Instr.row, encode, Code.format, Code.selector]

theorem crc16 (bytes : List Byte) : Statement (.crc16 bytes) := by
  simp [Statement, Row.fits, Instr.row, encode, Code.format, Code.selector]

theorem serialize (p : Packet) : Statement (.serialize p) := by
  simp [Statement, Row.fits, Instr.row, encode, Code.format, Code.selector]

end EncodesItsRow

end Sys2Proof.Laws
end

