-- ==== Sys2Proof/Laws/Wire.lean ====
section
/-! SUPPORT. The bytes of the wire in numbers: splitting and joining words, the CRC and the serializer against the readings of
Sys2Proof/Safety.lean, the field register, the receiver's validity check. -/

namespace Sys2Proof.Machine

/-- The bytes of a two-byte word. -/
theorem extractLsb_append2 (a b : Byte) : (a ++ b).extractLsb' 8 8 = a ∧ (a ++ b).extractLsb' 0 8 = b := by
  refine ⟨?_,?_⟩ <;> ext i hi <;> simp [BitVec.getElem_extractLsb'] <;> grind

/-- The bytes of a four-byte word. -/
theorem extractLsb_append4 (a b c d : Byte) : (a ++ b ++ c ++ d).extractLsb' 24 8 = a ∧ (a ++ b ++ c ++ d).extractLsb' 16 8 = b ∧ (a ++ b ++ c ++ d).extractLsb' 8 8 = c ∧ (a ++ b ++ c ++ d).extractLsb' 0 8 = d := by
  refine ⟨?_,?_,?_,?_⟩ <;> ext i hi <;> simp [BitVec.getElem_extractLsb'] <;> grind

/-- A word with one more byte behind it, in numbers. -/
theorem append_byte_toNat {w : Nat} (a : BitVec w) (b : Byte) : (a ++ b).toNat = a.toNat * 2 ^ 8 + b.toNat := by
  rw [BitVec.toNat_append, Nat.shiftLeft_eq, Nat.mul_comm]
  exact (Nat.two_pow_add_eq_or_of_lt b.isLt a.toNat).symm

/-- One CRC shift in numbers (R100). -/
theorem crcShift_toNat (c : Crc) : (crcShift c).toNat = crcShiftNat c.toNat := by
  have hlt := c.isLt
  unfold crcShift crcShiftNat
  have hm : c.msb = decide (2 ^ 15 ≤ c.toNat) := by rw [BitVec.msb_eq_decide]
  rw [hm]
  by_cases h : 2 ^ 15 ≤ c.toNat
  · simp only [h, decide_true, if_true]
    simp only [crcPoly, BitVec.toNat_xor, BitVec.toNat_shiftLeft, Nat.shiftLeft_eq, pow_one]
    rw [Nat.xor_mod_two_pow]
    rfl
  · simp only [h, decide_false, if_false, Bool.false_eq_true]
    simp [BitVec.toNat_shiftLeft, Nat.shiftLeft_eq]

/-- One CRC byte in numbers (R100). -/
theorem crcByte_toNat (c : Crc) (b : Byte) : (crcByte c b).toNat = crcShiftNat^[8] (c.toNat ^^^ b.toNat * 2 ^ 8) := by
  have hb := b.isLt
  have h0 : (c ^^^ (b.zeroExtend 16 <<< 8)).toNat = c.toNat ^^^ b.toNat * 2 ^ 8 := by
    simp only [BitVec.toNat_xor, BitVec.toNat_shiftLeft, Nat.shiftLeft_eq, BitVec.truncate_eq_setWidth, BitVec.toNat_setWidth]
    congr 1
    rw [Nat.mod_eq_of_lt (a := b.toNat) (by omega), Nat.mod_eq_of_lt (by omega)]
  unfold crcByte
  simp only [crcShift_toNat, h0, Function.iterate_succ, Function.iterate_zero, Function.comp, id]

/-- The CRC in numbers is the CRC (R100). -/
theorem crcNat_eq_crc16 (bytes : List Byte) : crcNat bytes = (crc16 bytes).toNat := by
  have : ∀ (c : Crc), bytes.foldl (fun c b => crcShiftNat^[8] (c ^^^ b.toNat * 2 ^ 8)) c.toNat = (bytes.foldl crcByte c).toNat := by
    induction bytes with
    | nil => intro c; rfl
    | cons b rest ih => intro c; simp only [List.foldl_cons]; rw [← crcByte_toNat, ih]
  exact this 0

/-- The CRC goes on from where it stopped. -/
theorem crc16_append (a b : List Byte) : crc16 (a ++ b) = b.foldl crcByte (crc16 a) := by
  simp [crc16, List.foldl_append]

/-- The field bytes in numbers (R74, R75). -/
theorem fieldBytes_eq_sent (cmd : Byte) (f : FieldId) : fieldBytes cmd f = sentFieldBytes cmd f := by
  have e : ∀ n, f.extractLsb' (8*n) 8 = BitVec.ofNat 8 (f.toNat / 2 ^ (8*n)) := by
    intro n; apply BitVec.eq_of_toNat_eq; simp [BitVec.extractLsb'_toNat, Nat.shiftRight_eq_div_pow]
  have e3 := e 3; have e2 := e 2; have e1 := e 1; have e0 := e 0
  simp only [Nat.mul_zero, show 8*3=24 from rfl, show 8*2=16 from rfl, show 8*1 = 8 from rfl] at *
  unfold fieldBytes sentFieldBytes
  by_cases h : cmd = 0x02 ∨ cmd = 0x03 ∨ cmd = 0x06
  · have hs : swapsField cmd = true := by
      rcases h with h|h|h <;> subst h <;> rfl
    simp only [hs, if_true, h, bytes32, swapMiddle]
    obtain ⟨a,b,c,d⟩ := extractLsb_append4 (f.extractLsb' 24 8) (f.extractLsb' 8 8) (f.extractLsb' 16 8) (f.extractLsb' 0 8)
    rw [a,b,c,d,e3,e2,e1,e0]
  · have hs : swapsField cmd = false := by
      rw [not_or, not_or] at h
      simp only [swapsField, cmdInfo, cmdSetCode, cmdGetCode, Bool.or_eq_false_iff, beq_eq_false_iff_ne, ne_eq]
      exact ⟨⟨h.1, h.2.1⟩, h.2.2⟩
    simp only [hs, h, if_false, bytes32, e3,e2,e1,e0, Bool.false_eq_true]

/-- The source byte in numbers (R71). -/
theorem sourceByte_eq_add (src : BusAddr) : sourceByte src = BitVec.ofNat 8 (128 + src.toNat) := by
  revert src; decide +kernel

/-- A frame body in numbers, while its length fits one byte (R70, R111). -/
theorem packetBody_eq_sent (p : Packet) (h : p.payload.length ≤ 244) : packetBody p = sentBody p.cmd p.src p.dst p.field p.payload := by
  have hl : lengthByte p.payload.length = BitVec.ofNat 8 (11 + p.payload.length) := by
    unfold lengthByte minFrameLen; rw [if_pos (by omega)]
  simp only [packetBody, frameBody, sentBody, hl, fieldBytes_eq_sent, sourceByte_eq_add, startByte]

/-- The bytes of a CRC in numbers. -/
theorem bytes16_eq_div (c : Crc) : bytes16 c = [BitVec.ofNat 8 (c.toNat / 2^8), BitVec.ofNat 8 c.toNat] := by
  simp only [bytes16]
  congr 1
  · apply BitVec.eq_of_toNat_eq; simp [BitVec.extractLsb'_toNat, Nat.shiftRight_eq_div_pow]

/-- The bytes of a field id in numbers. -/
theorem bytes32_eq_div (f : FieldId) : bytes32 f = [BitVec.ofNat 8 (f.toNat / 2^24), BitVec.ofNat 8 (f.toNat / 2^16), BitVec.ofNat 8 (f.toNat / 2^8), BitVec.ofNat 8 f.toNat] := by
  unfold bytes32
  simp only [List.cons.injEq, and_true]
  refine ⟨?_, ?_, ?_, ?_⟩ <;> (apply BitVec.eq_of_toNat_eq; simp [BitVec.extractLsb'_toNat, Nat.shiftRight_eq_div_pow])

/-- The serializer against `sentFrame` (R111). -/
theorem serializeBytes_eq_sent (p : Packet) (h : p.payload.length ≤ 244) : serializeBytes p = sentFrame p.cmd p.src p.dst p.field p.payload := by
  simp only [serializeBytes, sentFrame, packetBody_eq_sent p h, bytes16_eq_div, crcNat_eq_crc16]

/-- The filled packet against `builtPacket` (R111). -/
theorem fillPacket_eq_built (p : Packet) (h : p.payload.length ≤ 244) : fillPacket p = builtPacket p.cmd p.src p.dst p.field p.payload := by
  have hl : lengthByte p.payload.length = BitVec.ofNat 8 (11 + p.payload.length) := by
    unfold lengthByte minFrameLen; rw [if_pos (by omega)]
  simp [fillPacket, builtPacket, hl, packetBody_eq_sent p h, crcNat_eq_crc16]

/-- Inverting an inverted byte gives it back (R78). -/
theorem invertByte_xor (b : Byte) : invertByte (b ^^^ 0xFF) = b := by
  simp [invertByte, lineInvert]

/-- Pushing a byte into the field register, in numbers (R156). -/
theorem fieldPush_eq_add (f : FieldId) (b : Byte) : fieldPush f b = BitVec.ofNat 32 (f.toNat * 2 ^ 8 + b.toNat) := by
  apply BitVec.eq_of_toNat_eq
  have hf := f.isLt
  have hb := b.isLt
  simp only [fieldPush, BitVec.toNat_or, BitVec.toNat_shiftLeft, BitVec.toNat_ofNat, BitVec.truncate_eq_setWidth, BitVec.toNat_setWidth, Nat.shiftLeft_eq]
  have e1 : f.toNat * 2 ^ 8 % 2 ^ 32 = 2 ^ 8 * (f.toNat % 2 ^ 24) := by omega
  rw [e1, Nat.mod_eq_of_lt (a := b.toNat) (by omega), ← Nat.two_pow_add_eq_or_of_lt hb]
  omega

/-- Dropping the last two elements. -/
theorem take_length_sub_two (l : List Byte) (b : Byte) : (l ++ [b]).take ((l ++ [b]).length - 2) = (l ++ [b]).dropLast.dropLast := by
  rw [List.dropLast_eq_take, List.dropLast_eq_take, List.take_take]
  congr 1; simp

/-- When the receiver takes a frame for valid (R162, R163). -/
theorem valid_onCrc1_iff (r : Receiver) (b : Byte) : (r.onCrc1 b).valid = true ↔ crc16 ((r.buf ++ [b]).dropLast.dropLast) = r.crc ||| b.zeroExtend 16 ∧ 11 ≤ r.len.toNat := by
  unfold Receiver.valid Receiver.onCrc1 Receiver.take
  dsimp only
  rw [take_length_sub_two, Bool.and_eq_true, beq_iff_eq, decide_eq_true_iff]; rfl

/-- An accepted FEED of a line byte takes one receiver step on the inverted byte (R150). -/
theorem exec_feed_accepted {s : State} {now : Nat} (b : Byte) (h : s.Accepts now) :
    exec (.feed now (b ^^^ 0xFF)) s = .next ((s.setLastNow now).rxStep b now) := by
  have := execFeed_accepted (b ^^^ 0xFF) h.1 h.2
  rw [invertByte_xor] at this; exact this

end Sys2Proof.Machine
end

