-- ==== Sys2Proof/Laws/Values.lean ====
section
/-! SUPPORT. Rounding, domains and the qualifier against the readings of Sys2Proof/Safety.lean. -/

namespace Sys2Proof.Machine

/-- The qualifier byte of a built payload (R81, R132). -/
theorem qualifier_eq_sent (a : BuildArgs) : qualifier a.enableByte a.value = sentQualifier a := by
  unfold qualifier sentQualifier enableOverrideFrom enableOverrideTo; split_ifs <;> rfl

/-- An integer domain (R133). -/
theorem intWithin_eq_true_iff (lo hi : Int) (v : Rat) : intWithin lo hi v = true ↔ ∃ z : Int, v = z ∧ lo ≤ z ∧ z ≤ hi := by
  simp only [intWithin, Bool.and_eq_true, beq_iff_eq, decide_eq_true_eq]
  constructor
  · rintro ⟨⟨h1, h2⟩, h3⟩; exact ⟨v.num, (Rat.den_eq_one_iff v).mp h1 |>.symm, h2, h3⟩
  · rintro ⟨z, rfl, h1, h2⟩; simp [h1, h2]

/-- `round` returns a nearest integer, the one farther from zero on a tie (R11). -/
theorem isRounded_roundHalfAway (x : Rat) : IsRounded (roundHalfAway x) x := by
  unfold IsRounded roundHalfAway
  have e : ∀ y : Rat, y.floor = ⌊y⌋ := fun y => rfl
  split
  · rename_i h
    rw [e]
    have h1 := Int.floor_le (x + 1/2)
    have h2 := Int.lt_floor_add_one (x + 1/2)
    generalize ((⌊x + 1/2⌋ : Int) : Rat) = z at *
    refine ⟨abs_le.mpr ⟨by linarith, by linarith⟩, fun h3 => ?_⟩
    rw [abs_of_nonneg h]
    rcases abs_cases (z - x) with ⟨h4, h5⟩ | ⟨h4, h5⟩
    · calc x ≤ z := by linarith
        _ ≤ |z| := le_abs_self z
    · linarith
  · rename_i h
    rw [e]
    have h1 := Int.floor_le (-x + 1/2)
    have h2 := Int.lt_floor_add_one (-x + 1/2)
    push_cast
    generalize ((⌊-x + 1/2⌋ : Int) : Rat) = z at *
    refine ⟨abs_le.mpr ⟨by linarith, by linarith⟩, fun h3 => ?_⟩
    rw [abs_of_neg (by linarith), abs_neg]
    rcases abs_cases (-z - x) with ⟨h4, h5⟩ | ⟨h4, h5⟩
    · linarith
    · calc -x ≤ z := by linarith
        _ ≤ |z| := le_abs_self z

/-- Only one integer is a rounded value. -/
theorem isRounded_unique (z w : Int) (x : Rat) (hz : IsRounded z x) (hw : IsRounded w x) : z = w := by
  obtain ⟨a, b⟩ := hz
  obtain ⟨c, d⟩ := hw
  by_contra hne
  have hd : |(z : Rat) - w| ≤ 1 := by
    calc |(z : Rat) - w| = |((z : Rat) - x) - (w - x)| := by ring_nf
      _ ≤ |(z : Rat) - x| + |(w : Rat) - x| := abs_sub _ _
      _ ≤ 1 := by linarith
  have hd' : |z - w| ≤ 1 := by exact_mod_cast hd
  have : z = w + 1 ∨ w = z + 1 := by
    have := abs_le.mp hd'; omega
  have key : ∀ z w : Int, w = z + 1 → |(z : Rat) - x| ≤ 1/2 → |(w : Rat) - x| ≤ 1/2 → (|(z : Rat) - x| = 1/2 → |x| ≤ |(z : Rat)|) → (|(w : Rat) - x| = 1/2 → |x| ≤ |(w : Rat)|) → False := by
    intro z w e a c b d
    subst e
    push_cast at *
    have a1 := abs_le.mp a
    have c1 := abs_le.mp c
    have hx : x = z + 1/2 := by linarith [a1.1, c1.2]
    have ez : |(z : Rat) - x| = 1/2 := by rw [hx]; norm_num
    have ew : |(z : Rat) + 1 - x| = 1/2 := by rw [hx]; norm_num [abs_of_pos]
    have b' := b ez
    have d' := d ew
    rw [hx] at b' d'
    rcases le_or_gt 0 z with hz | hz
    · have : (0 : Rat) ≤ z := by exact_mod_cast hz
      rw [abs_of_nonneg this, abs_of_nonneg (by linarith)] at b'; linarith
    · have : (z : Rat) ≤ -1 := (show (z : Rat) ≤ ((-1 : Int) : Rat) from Int.cast_le.mpr (by omega)).trans (by norm_num)
      rw [abs_of_nonpos (by linarith : (z:Rat) + 1/2 ≤ 0), abs_of_nonpos (by linarith : (z:Rat) + 1 ≤ 0)] at d'; linarith
  rcases this with h | h
  · exact key w z h c a d b
  · exact key z w h a c b d

/-- `IsRounded` is what `round` computes. -/
theorem isRounded_iff (z : Int) (x : Rat) : IsRounded z x ↔ roundHalfAway x = z :=
  ⟨fun h => isRounded_unique _ _ _ (isRounded_roundHalfAway x) h, fun h => h ▸ isRounded_roundHalfAway x⟩

/-- The low byte of an integer. -/
theorem ofInt_byte (z : Int) : (((BitVec.ofInt 32 z).extractLsb' 0 8).toNat : Int) = z % 256 := by
  simp [BitVec.extractLsb'_toNat, BitVec.toNat_ofInt]; omega

/-- The low two bytes of an integer. -/
theorem ofInt_two_bytes (z : Int) : ((((BitVec.ofInt 32 z).extractLsb' 0 16).extractLsb' 8 8).toNat * 2 ^ 8 + (((BitVec.ofInt 32 z).extractLsb' 0 16).extractLsb' 0 8).toNat : Int) = z % 2^16 := by
  simp [BitVec.extractLsb'_toNat, BitVec.toNat_ofInt, Nat.shiftRight_eq_div_pow]; omega

/-- The four bytes of an integer. -/
theorem ofInt_four_bytes (z : Int) : (((BitVec.ofInt 32 z).extractLsb' 24 8).toNat * 2 ^ 24 + ((BitVec.ofInt 32 z).extractLsb' 16 8).toNat * 2 ^ 16 + ((BitVec.ofInt 32 z).extractLsb' 8 8).toNat * 2 ^ 8 + ((BitVec.ofInt 32 z).extractLsb' 0 8).toNat : Int) = z % 2^32 := by
  simp [BitVec.extractLsb'_toNat, BitVec.toNat_ofInt, Nat.shiftRight_eq_div_pow]; omega

/-- Two bytes as a signed number. -/
theorem toInt_two_bytes (a b : Byte) : (a ++ b).toInt = asSigned 16 (a.toNat * 2 ^ 8 + b.toNat) := by
  have h : (a ++ b).toNat = a.toNat * 2 ^ 8 + b.toNat := by
    rw [BitVec.toNat_append, Nat.shiftLeft_eq, Nat.mul_comm]
    exact (Nat.two_pow_add_eq_or_of_lt b.isLt a.toNat).symm
  rw [BitVec.toInt_eq_toNat_cond, h]
  unfold asSigned
  simp only [show 8+8=16 from rfl]
  split <;> split <;> omega

/-- Four bytes as a signed number. -/
theorem toInt_four_bytes (a b c d : Byte) : (a ++ b ++ c ++ d).toInt = asSigned 32 (a.toNat * 2 ^ 24 + b.toNat * 2^16 + c.toNat * 2^8 + d.toNat) := by
  have h : (a ++ b ++ c ++ d).toNat = a.toNat * 2 ^ 24 + b.toNat * 2^16 + c.toNat * 2^8 + d.toNat := by
    rw [append_byte_toNat, append_byte_toNat, append_byte_toNat]; omega
  rw [BitVec.toInt_eq_toNat_cond, h]
  unfold asSigned
  simp only [show 8+8+8+8=32 from rfl]
  split <;> split <;> omega

/-- A number in range comes back from its remainder. -/
theorem asSigned_of_emod (n : Nat) (z : Int) (h1 : -2^n ≤ z) (h2 : z < 2^n) (k : Nat) (hk : (k : Int) = z % 2^(n+1)) : asSigned (n+1) k = z := by
  unfold asSigned
  simp only [Nat.add_sub_cancel]
  have hp : (2:Int)^(n+1) = 2 * 2^n := by ring
  have hpos : (0:Int) < 2^n := by positivity
  rcases lt_or_ge z 0 with h | h
  · have : z % 2^(n+1) = z + 2^(n+1) := by
      rw [← Int.add_emod_right, Int.emod_eq_of_lt] <;> omega
    rw [this] at hk
    have : ¬ (k < 2^n) := by
      intro hc
      have : (k : Int) < 2^n := by exact_mod_cast hc
      omega
    rw [if_neg this]; omega
  · have : z % 2^(n+1) = z := Int.emod_eq_of_lt h (by omega)
    rw [this] at hk
    have : k < 2^n := by
      have : (k : Int) < 2^n := by omega
      exact_mod_cast this
    rw [if_pos this]; omega

end Sys2Proof.Machine
end

