-- ==== Sys2Proof/Tests/Slice0.lean ====
section
/-! SUPPORT. Tests: ill-formed terms, words written out from the spec's encodings, the spec's own vectors (95_test_vectors.md)
one step each, and for every statement with hypotheses a concrete case that meets them. -/

namespace Sys2Proof.Tests

-- One thread: each of Lean's threads reserves a whole stack.
set_option Elab.async false

open Sys2Proof Sys2Proof.Machine

/-! ### Small states -/

/-- Point p0 of configuration A (95_test_vectors.md). -/
def confP0 : PointConf :=
  { fieldId := 0x11223344, kind := .writable, encoding := .temperature, updateInterval := 10000, retryInterval := 60000,
    enableByte := 0x01, isBroadcast := false }

/-- Point p1 of configuration A. -/
def confP1 : PointConf :=
  { fieldId := 0x0A0B0C0D, kind := .readOnly, encoding := .int16, updateInterval := 5000, retryInterval := 30000,
    enableByte := 0x00, isBroadcast := false }

/-- The block-wide part of configuration A. -/
def blockA : BlockConf := { srcAddr := 0x42, dstAddr := 0x00, postSetPollInterval := 1000, maxPoints := 2 }

/-- Configuration A. -/
def confA : Configuration := { block := blockA, points := [confP0, confP1] }

/-- Configuration A after reset, with these two points. -/
def withPoints (a b : Point) : State := { State.resetWith confA with points := [a, b] }

/-- p0 as reset leaves it. -/
def freshP0 : Point := Point.reset confP0

/-- p1 as reset leaves it. -/
def freshP1 : Point := Point.reset confP1

/-- Configuration A after reset, with this receiver. -/
def receiving (rx : Receiver) : State := { State.resetWith confA with rx := rx }

/-- The receiver in a state, its buffer as given. -/
def inState (st : RxState) (buf : List Byte) : Receiver := { Receiver.reset with state := st, buf := buf }

/-- The receiver that has taken RET0 but for its last byte. -/
def beforeRet0 : Receiver :=
  { state := .crc1, buf := [0xDC, 0x80, 0x42, 0x0E, 0x07, 0x11, 0x22, 0x33, 0x44, 0x00, 0x05, 0x60, 0x23], src := 0x00
    dst := 0x42, len := 0x0E, cmd := 0x07, field := 0x11223344, crc := 0x2300 }

/-- RET0 as a completed frame. -/
def ret0 : Frame :=
  { src := 0x00, dst := 0x42, len := 0x0E, field := 0x11223344, payload := [0x00, 0x05, 0x60], crc := 0x23C8 }

/-- Builder operands of the vectors of 95_test_vectors.md section 3. -/
def args (enableByte : Byte) (v : Rat) : BuildArgs :=
  { src := 0x42, dst := 0x00, field := 0x11223344, value := v, enableByte := enableByte }

/-- The frame of the packet an operation returns. -/
def returnedFrame : Result → List Byte
  | .next t =>
    match t.ret with
    | some (.packet p) => serializeBytes p
    | _ => []
  | _ => []

/-- What a parser returns. -/
def parsedBy : Result → Option (Value × Bool)
  | .next t =>
    match t.ret with
    | some (.parsed v ok) => some (v, ok)
    | _ => none
  | _ => none

/-- The events of an operation. -/
def eventsOf : Result → List Event
  | .next t => t.out
  | _ => []

/-- The points an operation leaves. -/
def pointsOf : Result → List Point
  | .next t => t.points
  | _ => []

/-- The fault an operation leaves. -/
def faultOf : Result → Option FaultCode
  | .next t => t.fault
  | _ => none

/-- A decoded form. -/
def decodesTo (c : Code) (i : Instr) : Bool :=
  match decode c with
  | .ok j => i = j
  | .error _ => false

/-- An operation answers this next state: an outcome compared by a Bool, so that the kernel can evaluate it. -/
def answers (r : Result) (t : State) : Bool :=
  match r with
  | .next u => u = t
  | _ => false

/-- An operation is refused with this reason. -/
def refuses (r : Result) (why : Refusal) : Bool :=
  match r with
  | .refused u => u = why
  | _ => false

theorem eq_next_iff (r : Result) (t : State) : r = .next t ↔ answers r t = true := by
  cases r <;> simp [answers]

theorem eq_refused_iff (r : Result) (why : Refusal) : r = .refused why ↔ refuses r why = true := by
  cases r <;> simp [refuses]

/-! ### Ill-formed terms -/

theorem test_frame_of_wrong_length_is_ill_formed : (Instr.cmdRet { ret0 with len := 0x0D }).wf = false := by decide +kernel
theorem test_frame_of_wrong_crc_is_ill_formed : (Instr.cmdRet { ret0 with crc := 0x23C9 }).wf = false := by decide +kernel
theorem test_frame_is_ill_formed_under_another_command : (Instr.cmdAck ret0).wf = false := by decide +kernel
theorem test_vector_frame_is_well_formed : (Instr.cmdRet ret0).wf = true := by decide +kernel
theorem test_uint8_value_is_ill_formed :
    (Instr.setU8 (args 1 256)).wf = false ∧ (Instr.infU8 (args 1 (-1))).wf = false := by decide +kernel
theorem test_int8_value_is_ill_formed :
    (Instr.setI8 (args 1 128)).wf = false ∧ (Instr.infI8 (args 1 (-129))).wf = false := by decide +kernel
theorem test_int16_value_is_ill_formed :
    (Instr.setI16 (args 1 32768)).wf = false ∧ (Instr.infI16 (args 1 (1 / 2))).wf = false := by decide +kernel
theorem test_int32_value_is_ill_formed :
    (Instr.setI32 (args 1 2147483648)).wf = false ∧ (Instr.infI32 (args 1 (-2147483649))).wf = false := by decide +kernel
theorem test_temperature_is_ill_formed :
    (Instr.setTemp (args 1 512)).wf = false ∧ (Instr.infTemp (args 1 (65535 / 128))).wf = false := by decide +kernel
theorem test_room_temperature_is_ill_formed :
    (Instr.setRoomTemp (args 1 512)).wf = false ∧ (Instr.infRoomTemp (args 1 (-513))).wf = false := by decide +kernel
theorem test_packet_of_245_bytes_is_ill_formed :
    (Instr.serialize ⟨0, 0, 0, 0, 0, List.replicate 245 0, 0⟩).wf = false
      ∧ (Instr.serialize ⟨0, 0, 0, 0, 0, List.replicate 244 0, 0⟩).wf = true := by decide +kernel

/-! ### Words written out from the encodings (30_encoding.md R70 to R86), the CRCs computed by hand from 40_crc.md R100 -/

theorem test_decode_none : decodesTo (.frame [0xDC, 0x80, 0x42, 0x0B, 0x00, 0x11, 0x22, 0x33, 0x44, 0x58, 0x9A])
    (.cmdNone ⟨0x00, 0x42, 0x0B, 0x11223344, [], 0x589A⟩) = true := by decide +kernel
theorem test_decode_opaque01 : decodesTo (.frame [0xDC, 0x80, 0x42, 0x0B, 0x01, 0x11, 0x22, 0x33, 0x44, 0xF2, 0xCB])
    (.cmdOpaque01 ⟨0x00, 0x42, 0x0B, 0x11223344, [], 0xF2CB⟩) = true := by decide +kernel
theorem test_decode_inf :
    decodesTo (.frame [0xDC, 0xC2, 0x7F, 0x0D, 0x02, 0x11, 0x33, 0x22, 0x44, 0x05, 0x00, 0x7F, 0x81])
      (.cmdInf ⟨0x42, 0x7F, 0x0D, 0x11332244, [0x05, 0x00], 0x7F81⟩) = true := by decide +kernel
theorem test_decode_set :
    decodesTo (.frame [0xDC, 0xC2, 0x00, 0x0D, 0x03, 0x11, 0x33, 0x22, 0x44, 0x01, 0x03, 0x08, 0xC8])
      (.cmdSet ⟨0x42, 0x00, 0x0D, 0x11332244, [0x01, 0x03], 0x08C8⟩) = true := by decide +kernel
theorem test_decode_ack : decodesTo (.frame [0xDC, 0x80, 0x42, 0x0B, 0x04, 0x11, 0x22, 0x33, 0x44, 0xD1, 0x9C])
    (.cmdAck ⟨0x00, 0x42, 0x0B, 0x11223344, [], 0xD19C⟩) = true := by decide +kernel
theorem test_decode_nack : decodesTo (.frame [0xDC, 0x80, 0x42, 0x0B, 0x05, 0x11, 0x22, 0x33, 0x44, 0x7B, 0xCD])
    (.cmdNack ⟨0x00, 0x42, 0x0B, 0x11223344, [], 0x7BCD⟩) = true := by decide +kernel
theorem test_decode_get : decodesTo (.frame [0xDC, 0xC2, 0x00, 0x0B, 0x06, 0x11, 0x33, 0x22, 0x44, 0x15, 0x77])
    (.cmdGet ⟨0x42, 0x00, 0x0B, 0x11332244, [], 0x1577⟩) = true := by decide +kernel
theorem test_decode_ret :
    decodesTo (.frame [0xDC, 0x80, 0x42, 0x0E, 0x07, 0x11, 0x22, 0x33, 0x44, 0x00, 0x05, 0x60, 0x23, 0xC8])
      (.cmdRet ret0) = true := by decide +kernel
theorem test_decode_opaque08 :
    decodesTo (.frame [0xDC, 0x80, 0x42, 0x0B, 0x08, 0x11, 0x22, 0x33, 0x44, 0x5A, 0xB7])
      (.cmdOpaque08 0 ⟨0x00, 0x42, 0x0B, 0x11223344, [], 0x5AB7⟩) = true
    ∧ decodesTo (.frame [0xDC, 0x80, 0x42, 0x0B, 0x0F, 0x11, 0x22, 0x33, 0x44, 0x3D, 0x63])
      (.cmdOpaque08 7 ⟨0x00, 0x42, 0x0B, 0x11223344, [], 0x3D63⟩) = true := by decide +kernel
theorem test_decode_opaque10 :
    decodesTo (.frame [0xDC, 0x80, 0x42, 0x0B, 0x10, 0x11, 0x22, 0x33, 0x44, 0x5C, 0xC0])
      (.cmdOpaque10 0 ⟨0x00, 0x42, 0x0B, 0x11223344, [], 0x5CC0⟩) = true
    ∧ decodesTo (.frame [0xDC, 0x80, 0x42, 0x0B, 0x1F, 0x11, 0x22, 0x33, 0x44, 0x39, 0x39])
      (.cmdOpaque10 15 ⟨0x00, 0x42, 0x0B, 0x11223344, [], 0x3939⟩) = true := by decide +kernel
theorem test_decode_opaque20 :
    decodesTo (.frame [0xDC, 0x80, 0x42, 0x0B, 0x20, 0x11, 0x22, 0x33, 0x44, 0x50, 0x2E])
      (.cmdOpaque20 0 ⟨0x00, 0x42, 0x0B, 0x11223344, [], 0x502E⟩) = true
    ∧ decodesTo (.frame [0xDC, 0x80, 0x42, 0x0B, 0x3F, 0x11, 0x22, 0x33, 0x44, 0x31, 0x8D])
      (.cmdOpaque20 31 ⟨0x00, 0x42, 0x0B, 0x11223344, [], 0x318D⟩) = true := by decide +kernel
theorem test_decode_opaque40 :
    decodesTo (.frame [0xDC, 0x80, 0x42, 0x0B, 0x40, 0x11, 0x22, 0x33, 0x44, 0x49, 0xF2])
      (.cmdOpaque40 0 ⟨0x00, 0x42, 0x0B, 0x11223344, [], 0x49F2⟩) = true
    ∧ decodesTo (.frame [0xDC, 0x80, 0x42, 0x0B, 0x7F, 0x11, 0x22, 0x33, 0x44, 0x20, 0xE5])
      (.cmdOpaque40 63 ⟨0x00, 0x42, 0x0B, 0x11223344, [], 0x20E5⟩) = true := by decide +kernel
theorem test_decode_opaque80 :
    decodesTo (.frame [0xDC, 0x80, 0x42, 0x0B, 0x80, 0x11, 0x22, 0x33, 0x44, 0x7A, 0x4A])
      (.cmdOpaque80 0 ⟨0x00, 0x42, 0x0B, 0x11223344, [], 0x7A4A⟩) = true
    ∧ decodesTo (.frame [0xDC, 0x80, 0x42, 0x0B, 0xFF, 0x11, 0x22, 0x33, 0x44, 0x02, 0x35])
      (.cmdOpaque80 127 ⟨0x00, 0x42, 0x0B, 0x11223344, [], 0x0235⟩) = true := by decide +kernel

/-- Each way a frame can fail to be one (43_receiver.md R151, R152, R163; the fourth is vector RX-4). -/
theorem test_invalid_frames_are_rejected_by_name :
    decode (.frame [0xDD, 0x81, 0x00, 0x0B, 0x06, 0x00, 0x12, 0x34, 0x56, 0x6C, 0x91]) = .error .notStart
    ∧ decode (.frame [0xDC, 0x01, 0x00, 0x0B, 0x06, 0x00, 0x12, 0x34, 0x56, 0x6C, 0x91]) = .error .noSourceMarker
    ∧ decode (.frame [0xDC, 0x81, 0x00, 0x0B, 0x06, 0x00, 0x12, 0x34, 0x56, 0x7A, 0xB3]) = .error .badCrc
    ∧ decode (.frame [0xDC, 0x81, 0x00, 0x0A, 0x06, 0x00, 0x12, 0x34, 0x56, 0x29, 0x31]) = .error .shortLength
    ∧ decode (.frame [0xDC, 0x81, 0x00, 0x0D, 0x06, 0x00, 0x12, 0x34, 0x56, 0x7A, 0xB3]) = .error .wrongSize := by
  decide +kernel

theorem test_decode_requests :
    decode (.req 0b00 5 (.raw 0x23)) = .ok (.feed 5 0x23) ∧ decode (.req 0b01 5 .none) = .ok (.tick 5)
    ∧ decode (.req 0b10 5 (.target 1 3)) = .ok (.write 5 1 3) ∧ decode (.req 0b11 5 .none) = .ok (.reservedOp 5 .none)
    ∧ decode (.req 0b00 5 .none) = .error .wrongOperand := by decide +kernel

/-- Selectors 0000 to 1011 in order, then the four unused ones (R85). -/
theorem test_decode_builders (a : BuildArgs) :
    (List.range 12).map (fun n => decode (.builder (BitVec.ofNat 4 n) a)) =
        [.ok (.setU8 a), .ok (.infU8 a), .ok (.setI8 a), .ok (.infI8 a), .ok (.setI16 a), .ok (.infI16 a), .ok (.setI32 a),
          .ok (.infI32 a), .ok (.setTemp a), .ok (.infTemp a), .ok (.setRoomTemp a), .ok (.infRoomTemp a)]
    ∧ ∀ low : BitVec 2, decode (.builder (0b11#2 ++ low) a) = .ok (.selUnused low a) :=
  ⟨rfl, fun low => by
    have h : ∀ l : BitVec 2, ((0b11#2 ++ l).toNat = 12 + l.toNat) ∧ (0b11#2 ++ l).extractLsb' 0 2 = l := by decide
    obtain ⟨h1, h2⟩ := h low
    show Except.ok (instrOfSelector (0b11#2 ++ low) a) = _
    unfold instrOfSelector
    rw [h1, h2]
    have := low.isLt
    split <;> first | omega | rfl⟩

/-- Parser codes 0 to 7 in order (R82). -/
theorem test_decode_parsers (p : List Byte) :
    (List.range 8).map (fun n => decode (.parser (BitVec.ofNat 3 n) p)) =
      [.ok (.parseU8 p), .ok (.parseI8 p), .ok (.parseI16 p), .ok (.parseI32 p), .ok (.parseTemp p), .ok (.parseRoomTemp p),
        .ok (.parseText p), .ok (.parseUnused7 p)] := rfl

theorem test_decode_get_builder_and_functions (e : BitVec 3) (b : List Byte) (p : Packet) :
    decode (.builderGet e 0x42 0x00 0x11223344) = .ok (.buildGet e 0x42 0x00 0x11223344)
    ∧ decode (.crc16 b) = .ok (.crc16 b) ∧ decode (.serialize p) = .ok (.serialize p) := ⟨rfl, rfl, rfl⟩

theorem test_table_words_run_first :
    (decodeTableWord 8 0x07).isSome = true ∧ decodeTableWord 8 1 = some (.tick 0)
    ∧ step (State.reset.withFetchWord 8 1) = .next State.reset := by simp only [eq_next_iff]; decide +kernel

/-! ### CRC and serializer (95_test_vectors.md section 2) -/

theorem test_crc_vectors :
    crc16 [] = 0x0000 ∧ crc16 [0x01] = 0x1021 ∧ crc16 [0x80] = 0x9188 ∧ crc16 [0xFF] = 0x1EF0 ∧ crc16 [0xDC] = 0x0AF1
    ∧ crc16 [0x31, 0x32, 0x33, 0x34, 0x35, 0x36, 0x37, 0x38, 0x39] = 0x31C3 := by decide +kernel

theorem test_serialize_of_r111 :
    exec (.serialize ⟨0x06, 0x42, 0x00, 0x00, 0x11223344, [], 0x0000⟩) State.reset =
      .next { State.reset with ret := some (.frame ⟨0x06, 0x42, 0x00, 0x0B, 0x11223344, [], 0x1577⟩
        [0xDC, 0xC2, 0x00, 0x0B, 0x06, 0x11, 0x33, 0x22, 0x44, 0x15, 0x77]) } := by simp only [eq_next_iff]; decide +kernel

/-! ### Builders (95_test_vectors.md section 3) -/

theorem test_build_get : returnedFrame (exec (.buildGet 6 0x42 0x00 0x00123456) State.reset) =
    [0xDC, 0xC2, 0x00, 0x0B, 0x06, 0x00, 0x34, 0x12, 0x56, 0xCA, 0x12] := by decide +kernel
theorem test_set_u8 : returnedFrame (exec (.setU8 (args 0x06 0)) State.reset) =
    [0xDC, 0xC2, 0x00, 0x0D, 0x03, 0x11, 0x33, 0x22, 0x44, 0x05, 0x00, 0xF4, 0x6F] := by decide +kernel
theorem test_inf_u8 : returnedFrame (exec (.infU8 (args 0x06 0)) State.reset) =
    [0xDC, 0xC2, 0x7F, 0x0D, 0x02, 0x11, 0x33, 0x22, 0x44, 0x05, 0x00, 0x7F, 0x81] := by decide +kernel
theorem test_set_i8 : returnedFrame (exec (.setI8 (args 0x01 (-1))) State.reset) =
    [0xDC, 0xC2, 0x00, 0x0D, 0x03, 0x11, 0x33, 0x22, 0x44, 0x01, 0xFF, 0x26, 0x5B] := by decide +kernel
theorem test_inf_i8 : returnedFrame (exec (.infI8 (args 0x01 (-128))) State.reset) =
    [0xDC, 0xC2, 0x7F, 0x0D, 0x02, 0x11, 0x33, 0x22, 0x44, 0x01, 0x80, 0x22, 0xCD] := by decide +kernel
theorem test_set_i16 : returnedFrame (exec (.setI16 (args 0x01 (-2))) State.reset) =
    [0xDC, 0xC2, 0x00, 0x0E, 0x03, 0x11, 0x33, 0x22, 0x44, 0x01, 0xFF, 0xFE, 0x3C, 0x31] := by decide +kernel
theorem test_inf_i16 : returnedFrame (exec (.infI16 (args 0x01 1000)) State.reset) =
    [0xDC, 0xC2, 0x7F, 0x0E, 0x02, 0x11, 0x33, 0x22, 0x44, 0x01, 0x03, 0xE8, 0xD6, 0x89] := by decide +kernel
theorem test_set_i32 : returnedFrame (exec (.setI32 (args 0x01 (-1))) State.reset) =
    [0xDC, 0xC2, 0x00, 0x10, 0x03, 0x11, 0x33, 0x22, 0x44, 0x01, 0xFF, 0xFF, 0xFF, 0xFF, 0x4A, 0xF2] := by
  decide +kernel
theorem test_inf_i32 : returnedFrame (exec (.infI32 (args 0x01 0x12345678)) State.reset) =
    [0xDC, 0xC2, 0x7F, 0x10, 0x02, 0x11, 0x33, 0x22, 0x44, 0x01, 0x12, 0x34, 0x56, 0x78, 0x9F, 0x07] := by
  decide +kernel
theorem test_set_temp_rounds_a_negative_tie_away : returnedFrame (exec (.setTemp (args 0x01 (-1 / 128))) State.reset) =
    [0xDC, 0xC2, 0x00, 0x0E, 0x03, 0x11, 0x33, 0x22, 0x44, 0x01, 0xFF, 0xFF, 0x2C, 0x10] := by decide +kernel
theorem test_set_temp_qualifier_looks_at_the_exact_value :
    returnedFrame (exec (.setTemp (args 0x06 (1 / 256))) State.reset) =
      [0xDC, 0xC2, 0x00, 0x0E, 0x03, 0x11, 0x33, 0x22, 0x44, 0x06, 0x00, 0x00, 0xB4, 0x8F] := by decide +kernel
theorem test_inf_temp : returnedFrame (exec (.infTemp (args 0x01 (43 / 2))) State.reset) =
    [0xDC, 0xC2, 0x7F, 0x0E, 0x02, 0x11, 0x33, 0x22, 0x44, 0x01, 0x05, 0x60, 0x6C, 0xAF] := by decide +kernel
theorem test_inf_room_temp : returnedFrame (exec (.infRoomTemp (args 0x06 (43 / 2))) State.reset) =
    [0xDC, 0xC2, 0x7F, 0x0E, 0x02, 0x11, 0x33, 0x22, 0x44, 0x05, 0x60, 0x00, 0x28, 0x16] := by decide +kernel
theorem test_set_room_temp : exec (.setRoomTemp (args 0x01 (43 / 2))) State.reset =
    .next { State.reset with ret := some .noPacket } := by simp only [eq_next_iff]; decide +kernel

/-! ### Parsers (95_test_vectors.md section 4) -/

theorem test_parse_u8 : parsedBy (exec (.parseU8 [0x00, 0xFF]) State.reset) = some (.int 255, true)
    ∧ parsedBy (exec (.parseU8 [0x00, 0x01, 0x02]) State.reset) = some (.int 0, false) := by decide +kernel
theorem test_parse_i8 : parsedBy (exec (.parseI8 [0x00, 0x80]) State.reset) = some (.int (-128), true)
    ∧ parsedBy (exec (.parseI8 [0xFE]) State.reset) = some (.int 0, false) := by decide +kernel
theorem test_parse_i16 : parsedBy (exec (.parseI16 [0x00, 0x80, 0x00]) State.reset) = some (.int (-32768), true)
    ∧ parsedBy (exec (.parseI16 [0x05, 0x60]) State.reset) = some (.int 0, false) := by decide +kernel
theorem test_parse_i32 :
    parsedBy (exec (.parseI32 [0x00, 0x80, 0x00, 0x00, 0x00]) State.reset) = some (.int (-2147483648), true)
    ∧ parsedBy (exec (.parseI32 [0x00, 0x00, 0x01, 0x00]) State.reset) = some (.int 0, false) := by decide +kernel
theorem test_parse_temp : parsedBy (exec (.parseTemp [0x00, 0xFF, 0xE0]) State.reset) = some (.rat (-1 / 2), true)
    ∧ parsedBy (exec (.parseTemp [0x05, 0x60]) State.reset) = some (.rat 0, false) := by decide +kernel
theorem test_parse_room_temp :
    parsedBy (exec (.parseRoomTemp [0x05, 0x60, 0x00]) State.reset) = some (.rat 384, true) := by decide +kernel
theorem test_parse_text :
    parsedBy (exec (.parseText [0x00, 0x48, 0x00]) State.reset) = some (.text [0x00, 0x48, 0x00], true) := by
  decide +kernel

/-! ### FEED and the frame rows (95_test_vectors.md section 5) -/

/-- Vector RX-11: a second start byte is a source byte. -/
theorem test_feed_second_start_byte : exec (.feed 0 (0xDC ^^^ 0xFF)) (receiving (inState .sourceAddr [0xDC])) =
    .next (receiving { inState .destAddr [0xDC, 0xDC] with src := 0x5C }) := by simp only [eq_next_iff]; decide +kernel

/-- Vector RX-5: the last byte of RET0 at t = 50. -/
theorem test_feed_completes_ret0 :
    eventsOf (exec (.feed 50 (0xC8 ^^^ 0xFF)) (receiving beforeRet0)) =
        [.packet ⟨0x07, 0x00, 0x42, 0x0E, 0x11223344, [0x00, 0x05, 0x60], 0x23C8⟩, .value 0 (.rat (43 / 2)) true]
    ∧ pointsOf (exec (.feed 50 (0xC8 ^^^ 0xFF)) (receiving beforeRet0)) = [{ freshP0 with nextUpdate := 10050 }, freshP1] := by
  decide +kernel

/-- Vector RX-12: an Info from another device carries the swapped field id and matches no point. -/
theorem test_info_of_another_device_matches_nothing :
    eventsOf (exec (.cmdInf ⟨0x00, 0x7F, 0x0E, 0x11332244, [0x00, 0x05, 0x60], 0xBFF9⟩) (State.resetWith confA)) =
      [.packet ⟨0x02, 0x00, 0x7F, 0x0E, 0x11332244, [0x00, 0x05, 0x60], 0xBFF9⟩] := by decide +kernel

/-- Vector RX-13: a Ret of the wrong shape publishes the default and resets the counter all the same. -/
theorem test_ret_of_wrong_shape :
    eventsOf (exec (.cmdRet ⟨0x00, 0x42, 0x0D, 0x11223344, [0x00, 0x05], 0x6CCF⟩)
        { withPoints { freshP0 with getCount := 3 } freshP1 with lastNow := 5 }) =
      [.packet ⟨0x07, 0x00, 0x42, 0x0D, 0x11223344, [0x00, 0x05], 0x6CCF⟩, .value 0 (.rat 0) false]
    ∧ pointsOf (exec (.cmdRet ⟨0x00, 0x42, 0x0D, 0x11223344, [0x00, 0x05], 0x6CCF⟩)
        { withPoints { freshP0 with getCount := 3 } freshP1 with lastNow := 5 }) =
      [{ freshP0 with nextUpdate := 10005 }, freshP1] := by decide +kernel

/-- Program P5: a late Nack commits the write. -/
theorem test_nack_commits :
    pointsOf (exec (.cmdNack ⟨0x00, 0x42, 0x0B, 0x11223344, [], 0x7BCD⟩)
        (withPoints { freshP0 with dirty := true, target := some (-1 / 2), nextUpdate := 1004, setCount := 5 } freshP1)) =
      [{ freshP0 with target := some (-1 / 2), nextUpdate := 1004 }, freshP1] := by decide +kernel

/-- Vector RX-10: an opaque tag is announced with its raw byte. -/
theorem test_opaque_tag :
    exec (.cmdOpaque20 0 ⟨0x00, 0x42, 0x0B, 0x11223344, [], 0x502E⟩) (State.resetWith confA) =
      .next { State.resetWith confA with out := [.packet ⟨0x20, 0x00, 0x42, 0x0B, 0x11223344, [], 0x502E⟩] } := by
  simp only [eq_next_iff]; decide +kernel

/-! ### TICK and WRITE (95_test_vectors.md section 6) -/

/-- Vector S-1: the first TICK polls p0. -/
theorem test_tick_polls_p0 :
    exec (.tick 0) (State.resetWith confA) = .next { withPoints { freshP0 with getCount := 1 } freshP1 with
      out := [.tx [0x23, 0x3D, 0xFF, 0xF4, 0xF9, 0xEE, 0xCC, 0xDD, 0xBB, 0xEA, 0x88]] } := by simp only [eq_next_iff]; decide +kernel

/-- Program P2: the fresh write is sent, counted, and stays dirty. -/
theorem test_tick_sends_set0 :
    exec (.tick 0) (withPoints { freshP0 with dirty := true, target := some (43 / 2) } freshP1) =
      .next { withPoints { freshP0 with dirty := true, target := some (43 / 2), setCount := 1, nextUpdate := 1000 } freshP1
        with
        out := [.tx [0x23, 0x3D, 0xFF, 0xF1, 0xFC, 0xEE, 0xCC, 0xDD, 0xBB, 0xFE, 0xFA, 0x9F, 0x5D, 0xB3]] } := by
  simp only [eq_next_iff]; decide +kernel

/-- Program P3: at t = 29999 both points are exhausted; at t = 30000 p1 is armed again and polled. -/
theorem test_tick_rearms_p1 :
    eventsOf (exec (.tick 29999) (withPoints { freshP0 with getCount := 5 } { freshP1 with getCount := 5 })) = []
    ∧ exec (.tick 30000) (withPoints { freshP0 with getCount := 5 } { freshP1 with getCount := 5 }) =
      .next { withPoints { freshP0 with getCount := 5 } { freshP1 with getCount := 1 } with
        lastNow := 30000
        out := [.tx [0x23, 0x3D, 0xFF, 0xF4, 0xF9, 0xF5, 0xF3, 0xF4, 0xF2, 0x63, 0x37]] } := by simp only [eq_next_iff]; decide +kernel

/-- Vector S-6: a unicast RoomTemperature write spends the tick in silence. -/
theorem test_tick_silent_set :
    exec (.tick 4) (withPoints
        { freshP0 with conf := { confP0 with encoding := .roomTemperature }, dirty := true, target := some (43 / 2), setCount := 4 }
        freshP1) =
      .next { withPoints
          { freshP0 with
            conf := { confP0 with encoding := .roomTemperature }, dirty := true, target := some (43 / 2), setCount := 5,
            nextUpdate := 1004 }
          freshP1 with lastNow := 4 } := by simp only [eq_next_iff]; decide +kernel

/-- Vectors S-12 and S-11: -512 is accepted, 65535/128 rounds out of the range. -/
theorem test_write_at_the_edges_of_the_domain :
    exec (.write 0 0 (-512)) (State.resetWith confA) =
        .next (withPoints { freshP0 with target := some (-512), dirty := true } freshP1)
    ∧ faultOf (exec (.write 0 0 (65535 / 128)) (State.resetWith confA)) = some .value := by simp only [eq_next_iff]; decide +kernel

/-- Vectors S-7, S-8, S-9, S-14: the clock before the point, the sensor, the missing point, the reserved request. -/
theorem test_faults :
    faultOf (exec (.write 50 1 3) { State.resetWith confA with lastNow := 100 }) = some .time
    ∧ faultOf (exec (.write 0 1 3) (State.resetWith confA)) = some .write
    ∧ faultOf (exec (.write 0 2 1) (State.resetWith confA)) = some .write
    ∧ faultOf (exec (.reservedOp 0 .none) (State.resetWith confA)) = some .op := by decide +kernel

/-- Vectors S-15 and S-16: an address above 127, and a writable Text point. -/
theorem test_ill_formed_configurations :
    (State.resetWith { confA with block := { blockA with srcAddr := 0x80 } }).fault = some .config
    ∧ (State.resetWith { confA with points := [{ confP0 with encoding := .text }] }).fault = some .config
    ∧ (State.resetWith confA).fault = none := by decide +kernel

/-! ### Witnesses: for every statement with hypotheses, a case that meets them all -/

theorem witness_StepRunsDecodedOperation :
    ({ State.resetWith confA with pending := [.op (.req 0b01 0 .none)] } : State).pending = .op (.req 0b01 0 .none) :: []
    ∧ decode (.req 0b01 0 .none) = .ok (.tick 0) := by decide +kernel

theorem witness_StepIdlesOrRefusesUndecodable :
    (State.resetWith confA).pending = []
    ∧ ({ State.resetWith confA with pending := [.op (.frame [])] } : State).pending = .op (.frame []) :: []
    ∧ decode (.frame []) = .error .wrongSize := by decide +kernel

theorem witness_ResetInputSetsEveryStateToItsResetValue :
    ({ State.reset with pending := [.reset confA, .op (.req 0b01 0 .none)] } : State).pending =
      .reset confA :: [.op (.req 0b01 0 .none)] := rfl

theorem witness_DecodeOfEncodeIsTheInstruction :
    (Instr.cmdRet ret0).wf = true ∧ (Instr.setTemp (args 6 (-1 / 128))).wf = true ∧ (Instr.reservedOp 3 .none).wf = true := by
  decide +kernel

theorem witness_EncodeOfDecodeIsTheEncodedForm :
    decode (.frame [0xDC, 0x80, 0x42, 0x0E, 0x07, 0x11, 0x22, 0x33, 0x44, 0x00, 0x05, 0x60, 0x23, 0xC8]) = .ok (.cmdRet ret0)
    ∧ decode (.builder 0b1111 (args 1 2)) = .ok (.selUnused 0b11 (args 1 2)) := by decide +kernel

/-- The shortest frame there is. -/
theorem witness_DecodedFramesAreValid :
    decode (.frame [0xDC, 0x81, 0x00, 0x0B, 0x06, 0x00, 0x12, 0x34, 0x56, 0x6C, 0x91])
      = .ok (.cmdGet ⟨0x01, 0x00, 0x0B, 0x00123456, [], 0x6C91⟩) := by decide +kernel

theorem witness_TableRowsCoverEveryCodeOnce :
    (Instr.cmdOpaque80 0 ret0).row.fits (.frame [0, 0, 0, 0, 0x81]) = true
    ∧ (Instr.cmdOpaque80 1 ret0).row.fits (.frame [0, 0, 0, 0, 0x81]) = true := by decide +kernel

/-- Both ends of the payload's length. -/
theorem witness_SerializeReturnsTheFrame :
    (Packet.mk 0x06 0 0 0 0 [] 0).payload.length ≤ 244
    ∧ (Packet.mk 0xFF 0x7F 0xFF 0 0 (List.replicate 244 0xFF) 0).payload.length ≤ 244 := by decide +kernel

theorem witness_SerializedPacketDecodesWithArrivedField :
    (Packet.mk 0x02 0x42 0x7F 0 0x11223344 [0x01] 0).payload.length ≤ 244 := by decide

/-- Both ends of UInt8's domain, and integers on both sides of Int8's. -/
theorem witness_ByteBuildersReturnSetAndInfo :
    ((0 : Nat) ≤ 255 ∧ (args 6 0).value = ((0 : Nat) : Rat)) ∧ ((255 : Nat) ≤ 255 ∧ (args 6 255).value = ((255 : Nat) : Rat))
    ∧ (args 6 (-128)).value = ((-128 : Int) : Rat) ∧ (args 6 127).value = ((127 : Int) : Rat) := by decide +kernel

theorem witness_WordBuildersReturnSetAndInfo :
    (args 1 (-32768)).value = ((-32768 : Int) : Rat) ∧ (args 1 2147483647).value = ((2147483647 : Int) : Rat) := by
  decide +kernel

/-- Ties on both sides of zero, and a value that is no tie. -/
theorem witness_TemperatureBuildersRoundHalfAwayFromZero :
    IsRounded 1 ((args 1 (1 / 128)).value * 64) ∧ IsRounded (-1) ((args 1 (-1 / 128)).value * 64)
    ∧ IsRounded 0 ((args 6 (1 / 256)).value * 64) := by
  unfold IsRounded args; decide +kernel

theorem witness_BuiltPacketsCarryLengthAndCrc :
    (Code.builder 0b0000 (args 1 3)).format = .builderSel ∧ decode (.builder 0b0000 (args 1 3)) = .ok (.setU8 (args 1 3))
    ∧ exec (.setU8 (args 1 3)) State.reset = .next { State.reset with ret := some (.packet (buildSetU8 (args 1 3))) }
    ∧ (Code.builderGet 0 0x42 0 1).format = .builderGet
    ∧ decode (.builderGet 0 0x42 0 1) = .ok (.buildGet 0 0x42 0 1)
    ∧ exec (.buildGet 0 0x42 0 1) State.reset = .next { State.reset with ret := some (.packet (buildGetPacket 0x42 0 1)) } := by
  simp only [eq_next_iff]; decide +kernel

theorem witness_ByteParsersReadTheSecondByte : ([0x07] : List Byte).length ≠ 2 ∧ ([0, 1, 2] : List Byte).length ≠ 2 := by
  decide

theorem witness_WordParsersReadSignedBigEndian :
    ([0x05, 0x60] : List Byte).length ≠ 3 ∧ ([0, 0, 1, 0] : List Byte).length ≠ 5 := by decide

theorem witness_TemperatureAndTextParsersAreExact : ([] : List Byte).length ≠ 3 := by decide

/-- The edges of the domains: UInt8's top, Int8's bottom, and a temperature that is not a multiple of 1/64. -/
theorem witness_BuiltPayloadsParseBack :
    (inDomain .uint8 (args 1 255).value = true
      ∧ decode (.builder (encodingCode .uint8 ++ 0#1) (args 1 255)) = .ok (.setU8 (args 1 255))
      ∧ exec (.setU8 (args 1 255)) State.reset = .next { State.reset with ret := some (.packet (buildSetU8 (args 1 255))) })
    ∧ (inDomain .int8 (args 1 (-128)).value = true
      ∧ decode (.builder (encodingCode .int8 ++ 0#1) (args 1 (-128))) = .ok (.setI8 (args 1 (-128))))
    ∧ inDomain .temperature (args 1 (1 / 3)).value = true
    ∧ decode (.builder (encodingCode .temperature ++ 0#1) (args 1 (1 / 3))) = .ok (.setTemp (args 1 (1 / 3))) := by
  simp only [eq_next_iff]; decide +kernel

/-- An accepted request: no fault, and a clock value not below the last. -/
theorem accepts_receiving (rx : Receiver) (now : Nat) : (receiving rx).Accepts now := ⟨rfl, Nat.zero_le now⟩

theorem witness_FeedInStartSeeksTheStartByte :
    (receiving Receiver.reset).Accepts 0 ∧ (receiving Receiver.reset).rx.state = .start := ⟨accepts_receiving _ 0, rfl⟩

theorem witness_FeedInSourceAddrNeedsTheMarker :
    (receiving (inState .sourceAddr [0xDC])).Accepts 0 ∧ (receiving (inState .sourceAddr [0xDC])).rx.state = .sourceAddr :=
  ⟨accepts_receiving _ 0, rfl⟩

theorem witness_FeedStoresDestinationAndLength :
    (receiving (inState .destAddr [0xDC, 0x80])).Accepts 0 ∧ (receiving (inState .destAddr [0xDC, 0x80])).rx.state = .destAddr
    ∧ (receiving (inState .length [0xDC, 0x80, 0])).rx.state = .length := ⟨accepts_receiving _ 0, rfl, rfl⟩

theorem witness_FeedInCommandKeepsTheRawByte :
    (receiving (inState .command [0xDC, 0x80, 0, 11])).Accepts 0
    ∧ (receiving (inState .command [0xDC, 0x80, 0, 11])).rx.state = .command := ⟨accepts_receiving _ 0, rfl⟩

/-- The length register on both sides of 11, in the last of the four states. -/
theorem witness_FeedCollectsTheFieldId :
    (receiving { inState .field3 [] with len := 11 }).Accepts 0
    ∧ (receiving { inState .field3 [] with len := 11 }).rx.state = .field3
    ∧ (RxState.field3, RxState.crc0) ∈
      [(RxState.field0, RxState.field1), (.field1, .field2), (.field2, .field3),
        (.field3, if 11 < (receiving { inState .field3 [] with len := 11 }).rx.len.toNat then .payload else .crc0)]
    ∧ (RxState.field3, RxState.payload) ∈
      [(RxState.field0, RxState.field1), (.field1, .field2), (.field2, .field3),
        (.field3, if 11 < (receiving { inState .field3 [] with len := 12 }).rx.len.toNat then .payload else .crc0)] :=
  ⟨accepts_receiving _ 0, rfl, by decide, by decide⟩

theorem witness_FeedInPayloadCountsToTheLength :
    (receiving (inState .payload (List.replicate 9 0))).Accepts 0
    ∧ (receiving (inState .payload (List.replicate 9 0))).rx.state = .payload := ⟨accepts_receiving _ 0, rfl⟩

theorem witness_FeedInCrc0TakesTheHighByte :
    (receiving (inState .crc0 (List.replicate 9 0))).Accepts 0
    ∧ (receiving (inState .crc0 (List.replicate 9 0))).rx.state = .crc0 := ⟨accepts_receiving _ 0, rfl⟩

/-- RET0 with a wrong last byte, and with a length register one below the least. -/
theorem witness_FeedDiscardsAnInvalidFrame :
    (receiving beforeRet0).Accepts 50 ∧ (receiving beforeRet0).rx.state = .crc1
    ∧ crc16 (((receiving beforeRet0).rx.buf ++ [0xC9]).dropLast.dropLast) ≠
        (receiving beforeRet0).rx.crc ||| (0xC9 : Byte).zeroExtend 16
    ∧ (receiving { beforeRet0 with len := 10 }).rx.len.toNat < 11 :=
  ⟨accepts_receiving _ 50, rfl, by decide +kernel, by decide⟩

theorem witness_FeedRunsTheCommandOfAValidFrame :
    (receiving beforeRet0).Accepts 50 ∧ (receiving beforeRet0).rx.state = .crc1
    ∧ crc16 (((receiving beforeRet0).rx.buf ++ [0xC8]).dropLast.dropLast) =
        (receiving beforeRet0).rx.crc ||| (0xC8 : Byte).zeroExtend 16
    ∧ 11 ≤ (receiving beforeRet0).rx.len.toNat :=
  ⟨accepts_receiving _ 50, rfl, by decide +kernel, by decide⟩

theorem witness_FeedingAFrameRunsItsCommand :
    (receiving Receiver.reset).Accepts 50 ∧ (receiving Receiver.reset).rx.state = .start ∧ ret0.wf 0x07 = true :=
  ⟨accepts_receiving _ 50, rfl, by decide +kernel⟩

/-- A length byte below 11, and the largest there is. -/
theorem witness_FrameAttemptConsumesItsLength :
    ((receiving { inState .command [0xDC, 0x80, 0, 0] with len := 0 }).Accepts 0
      ∧ (receiving { inState .command [0xDC, 0x80, 0, 0] with len := 0 }).rx.Inv
      ∧ (List.replicate 7 (0 : Byte)).length =
        max 11 (receiving { inState .command [0xDC, 0x80, 0, 0] with len := 0 }).rx.len.toNat - 4)
    ∧ (receiving { inState .command [0xDC, 0x80, 0, 255] with len := 255 }).rx.Inv
    ∧ (List.replicate 251 (0 : Byte)).length =
        max 11 (receiving { inState .command [0xDC, 0x80, 0, 255] with len := 255 }).rx.len.toNat - 4 :=
  ⟨⟨accepts_receiving _ 0, rfl, by decide⟩, rfl, by decide +kernel⟩

theorem witness_InfoAndRetUpdateMatchingPoints :
    (State.resetWith confA).fault = none
    ∧ (Instr.cmdRet ret0, (0x07 : Byte)) ∈ [(Instr.cmdInf ret0, (0x02 : Byte)), (.cmdRet ret0, 0x07)] := by decide +kernel

theorem witness_AckAndNackCommitMatchingWrites :
    (State.resetWith confA).fault = none
    ∧ (Instr.cmdNack ret0, (0x05 : Byte)) ∈ [(Instr.cmdAck ret0, (0x04 : Byte)), (.cmdNack ret0, 0x05)] := by decide +kernel

theorem witness_OtherCommandsOnlyAnnounce :
    (State.resetWith confA).fault = none
    ∧ (Instr.cmdOpaque80 127 ret0, 255) ∈
      [(Instr.cmdNone ret0, 0), (.cmdOpaque01 ret0, 1), (.cmdOpaque08 7 ret0, 8 + (7 : BitVec 3).toNat),
        (.cmdOpaque80 127 ret0, 128 + (127 : BitVec 7).toNat)] := by decide +kernel

/-- p0 with a write of 21.5 that has been sent `n` times, due again at `t`. -/
def pendingP0 (n t : Nat) : Point := { freshP0 with dirty := true, target := some (43 / 2), setCount := n, nextUpdate := t }

/-- An exhausted write whose back-off ends at this very tick, behind a point that is not ready. -/
theorem witness_TickSendsTheFirstReadyUnicastWrite :
    (withPoints freshP0 (pendingP0 5 0)).Accepts 60000 ∧ (withPoints freshP0 (pendingP0 5 0)).points = [freshP0] ++ pendingP0 5 0 :: []
    ∧ (∀ q ∈ [freshP0], q.conf.kind = .writable → ¬ q.SetDue 60000) ∧ (pendingP0 5 0).conf.kind = .writable
    ∧ (pendingP0 5 0).SetDue 60000 ∧ (pendingP0 5 0).conf.isBroadcast = false ∧ (pendingP0 5 0).target = some (43 / 2)
    ∧ decode (.builder (encodingCode (pendingP0 5 0).conf.encoding ++ 0#1)
        (pointArgs (withPoints freshP0 (pendingP0 5 0)) (pendingP0 5 0) (43 / 2))) = .ok (.setTemp (args 0x01 (43 / 2)))
    ∧ exec (.setTemp (args 0x01 (43 / 2))) (withPoints freshP0 (pendingP0 5 0)) =
        .next { withPoints freshP0 (pendingP0 5 0) with ret := some (.packet (buildSetTemp (args 0x01 (43 / 2)))) } := by
  unfold State.Accepts Point.SetDue; simp only [eq_next_iff]; decide +kernel

/-- p0 as a broadcast point with a write of 21.5. -/
def broadcastP0 : Point := { pendingP0 4 0 with conf := { confP0 with isBroadcast := true } }

theorem witness_TickCompletesABroadcastWrite :
    (withPoints broadcastP0 freshP1).Accepts 0 ∧ (withPoints broadcastP0 freshP1).points = [] ++ broadcastP0 :: [freshP1]
    ∧ (∀ q ∈ ([] : List Point), q.conf.kind = .writable → ¬ q.SetDue 0) ∧ broadcastP0.conf.kind = .writable
    ∧ broadcastP0.SetDue 0 ∧ broadcastP0.conf.isBroadcast = true ∧ broadcastP0.target = some (43 / 2)
    ∧ decode (.builder (encodingCode broadcastP0.conf.encoding ++ 1#1)
        (pointArgs (withPoints broadcastP0 freshP1) broadcastP0 (43 / 2))) = .ok (.infTemp (args 0x01 (43 / 2)))
    ∧ exec (.infTemp (args 0x01 (43 / 2))) (withPoints broadcastP0 freshP1) =
        .next { withPoints broadcastP0 freshP1 with ret := some (.packet (buildInfTemp (args 0x01 (43 / 2)))) } := by
  unfold State.Accepts Point.SetDue; simp only [eq_next_iff]; decide +kernel

/-- p0 as a RoomTemperature point with a write of 21.5. -/
def roomP0 : Point := { pendingP0 4 0 with conf := { confP0 with encoding := .roomTemperature } }

theorem witness_TickSpendsASilentRoomTemperatureSet :
    (withPoints roomP0 freshP1).Accepts 0 ∧ (withPoints roomP0 freshP1).points = [] ++ roomP0 :: [freshP1]
    ∧ (∀ q ∈ ([] : List Point), q.conf.kind = .writable → ¬ q.SetDue 0) ∧ roomP0.conf.kind = .writable
    ∧ roomP0.SetDue 0 ∧ roomP0.conf.isBroadcast = false ∧ roomP0.conf.encoding = .roomTemperature
    ∧ roomP0.target ≠ none := by
  unfold State.Accepts Point.SetDue; decide +kernel

/-- A write whose sends are exhausted leaves its point open to polls. -/
theorem witness_TickPollsTheFirstDueWritablePoint :
    (withPoints (pendingP0 5 0) freshP1).Accepts 59999
    ∧ (withPoints (pendingP0 5 0) freshP1).points = [] ++ pendingP0 5 0 :: [freshP1]
    ∧ (∀ q ∈ (withPoints (pendingP0 5 0) freshP1).points, q.conf.kind = .writable → ¬ q.SetDue 59999)
    ∧ (∀ q ∈ ([] : List Point), q.conf.kind = .writable → ¬ q.GetDue 59999)
    ∧ (pendingP0 5 0).conf.kind = .writable ∧ (pendingP0 5 0).GetDue 59999 := by
  unfold State.Accepts Point.SetDue Point.GetDue; decide +kernel

/-- Both points exhausted: at t = 30000 the sensor's back-off is over and the writable point's is not. -/
theorem witness_TickPollsTheFirstDueSensor :
    (withPoints { freshP0 with getCount := 5 } { freshP1 with getCount := 5 }).Accepts 30000
    ∧ (withPoints { freshP0 with getCount := 5 } { freshP1 with getCount := 5 }).points =
        [{ freshP0 with getCount := 5 }] ++ { freshP1 with getCount := 5 } :: []
    ∧ (∀ q ∈ (withPoints { freshP0 with getCount := 5 } { freshP1 with getCount := 5 }).points,
        q.conf.kind = .writable → ¬ q.SetDue 30000 ∧ ¬ q.GetDue 30000)
    ∧ (∀ q ∈ [{ freshP0 with getCount := 5 }], q.conf.kind = .readOnly → ¬ q.GetDue 30000)
    ∧ ({ freshP1 with getCount := 5 } : Point).conf.kind = .readOnly
    ∧ ({ freshP1 with getCount := 5 } : Point).GetDue 30000 := by
  unfold State.Accepts Point.SetDue Point.GetDue; decide +kernel

theorem witness_TickWithNothingReadyOnlyRearms :
    (withPoints { freshP0 with getCount := 5 } { freshP1 with getCount := 5 }).Accepts 29999
    ∧ (∀ q ∈ (withPoints { freshP0 with getCount := 5 } { freshP1 with getCount := 5 }).points,
        q.conf.kind = .writable → ¬ q.SetDue 29999)
    ∧ ∀ q ∈ (withPoints { freshP0 with getCount := 5 } { freshP1 with getCount := 5 }).points, ¬ q.GetDue 29999 := by
  unfold State.Accepts Point.SetDue Point.GetDue; decide +kernel

/-- p0 and p1 are both due for a poll, and p0 has a write. -/
theorem witness_ReadyWritePreemptsPolls :
    (withPoints (pendingP0 0 0) freshP1).Accepts 0
    ∧ (∃ p ∈ (withPoints (pendingP0 0 0) freshP1).points, p.conf.kind = .writable ∧ p.SetDue 0)
    ∧ exec (.tick 0) (withPoints (pendingP0 0 0) freshP1) =
        .next { withPoints (pendingP0 1 1000) freshP1 with
          out := [.tx [0x23, 0x3D, 0xFF, 0xF1, 0xFC, 0xEE, 0xCC, 0xDD, 0xBB, 0xFE, 0xFA, 0x9F, 0x5D, 0xB3]] } := by
  unfold State.Accepts Point.SetDue; simp only [eq_next_iff]; decide +kernel

/-- The last millisecond of p1's back-off. -/
theorem witness_TickKeepsExhaustedCountersDuringBackOff :
    exec (.tick 29999) (withPoints { freshP0 with getCount := 5 } { freshP1 with getCount := 5 }) =
        .next { withPoints { freshP0 with getCount := 5 } { freshP1 with getCount := 5 } with lastNow := 29999 }
    ∧ (withPoints { freshP0 with getCount := 5 } { freshP1 with getCount := 5 }).points[1]? = some { freshP1 with getCount := 5 }
    ∧ 29999 < ({ freshP1 with getCount := 5 } : Point).nextUpdate
        + ({ freshP1 with getCount := 5 } : Point).conf.retryInterval := by simp only [eq_next_iff]; decide +kernel

theorem witness_WriteSetsTargetAndDirty :
    (State.resetWith confA).Accepts 0 ∧ (State.resetWith confA).points = [] ++ freshP0 :: [freshP1]
    ∧ ([] : List Point).length = 0 ∧ freshP0.conf.kind = .writable ∧ inDomain freshP0.conf.encoding (-512) = true := by
  unfold State.Accepts; decide +kernel

/-- One case for each clause: the first missing index, the sensor, a value out of range. -/
theorem witness_WriteRaisesItsFaults :
    (State.resetWith confA).Accepts 0 ∧ (State.resetWith confA).points.length ≤ 2
    ∧ ((State.resetWith confA).points[1]? = some freshP1 ∧ freshP1.conf.kind = .readOnly)
    ∧ (State.resetWith confA).points[0]? = some freshP0 ∧ freshP0.conf.kind = .writable
    ∧ inDomain freshP0.conf.encoding 512 = false := by
  unfold State.Accepts; decide +kernel

theorem witness_ReservedSelectorRaisesOpAndLateClockRaisesTime :
    ({ State.resetWith confA with lastNow := 100 } : State).fault = none
    ∧ 99 < ({ State.resetWith confA with lastNow := 100 } : State).lastNow
    ∧ (Instr.feed 99 0x23 = .tick 99 ∨ (∃ raw, Instr.feed 99 0x23 = .feed 99 raw)
        ∨ ∃ k v, Instr.feed 99 0x23 = .write 99 k v) :=
  ⟨by decide +kernel, by decide, .inr (.inl ⟨_, rfl⟩)⟩

theorem witness_FaultedBlockIgnoresRequestsAndFrames :
    ({ State.resetWith confA with fault := some .time } : State).fault = some .time
    ∧ decode (.req 0b11 0 .none) = .ok (.reservedOp 0 .none) := by decide +kernel

/-- The invariant holds of configuration A after reset, and step completes there. -/
theorem inv_resetA : (State.resetWith confA).Inv := by
  refine ⟨rfl, ?_, by decide +kernel⟩
  simp [State.resetWith, confA, Point.reset, Point.Inv]

theorem witness_StepKeepsTheInvariant :
    (State.resetWith confA).Inv ∧ step (State.resetWith confA) = .next (State.resetWith confA) := ⟨inv_resetA, rfl⟩

/-- The invariant holds of configuration A with this input pending. -/
theorem inv_pending (c : Code) : ({ State.resetWith confA with pending := [.op c] } : State).Inv := inv_resetA

/-- The invariant with an operation pending on which the step changes the receiver. -/
theorem witness_StepKeepsTheInvariant_feed :
    ({ State.resetWith confA with pending := [.op (.req 0b00 0 (.raw 0x23))] } : State).Inv
    ∧ step { State.resetWith confA with pending := [.op (.req 0b00 0 (.raw 0x23))] } =
        .next (receiving (inState .sourceAddr [0xDC])) := ⟨inv_pending _, by simp only [eq_next_iff]; decide +kernel⟩

/-- One refusal of each kind from states that meet the invariant. -/
theorem witness_StepNeverFaultsAndRefusesOnlyUndecodableOrUnused :
    ({ State.resetWith confA with pending := [.op (.frame [])] } : State).Inv
    ∧ step { State.resetWith confA with pending := [.op (.frame [])] } = .refused (.undecodable .wrongSize)
    ∧ step { State.resetWith confA with pending := [.op (.builder 0b1100 (args 0 0))] } = .refused .unusedSelector
    ∧ step { State.resetWith confA with pending := [.op (.parser 7 [])] } = .refused .unusedParser :=
  ⟨inv_pending _, (eq_refused_iff _ _).mpr (by decide +kernel), (eq_refused_iff _ _).mpr (by decide +kernel), (eq_refused_iff _ _).mpr (by decide +kernel)⟩

/-- A request that raises a fault, and one that moves the clock. -/
theorem witness_NoOperationUndoesConfigurationClockOrFault :
    exec (.tick 7) { State.resetWith confA with fault := some .op } = .next { State.resetWith confA with fault := some .op }
    ∧ exec (.write 7 9 0) (State.resetWith confA) = .next { State.resetWith confA with fault := some .write } := by
  simp only [eq_next_iff]; decide +kernel

theorem witness_OnlyFeedMovesTheReceiver :
    (∀ now raw, Instr.tick 0 ≠ .feed now raw)
    ∧ exec (.tick 0) (receiving beforeRet0) = .next { receiving beforeRet0 with
        points := [{ freshP0 with getCount := 1 }, freshP1]
        out := [.tx [0x23, 0x3D, 0xFF, 0xF4, 0xF9, 0xEE, 0xCC, 0xDD, 0xBB, 0xEA, 0x88]] } :=
  ⟨fun _ _ => Instr.noConfusion, by simp only [eq_next_iff]; decide +kernel⟩

/-- One case for each clause: a TICK, and an operation that is none. -/
theorem witness_OnlyTickTransmits :
    (∃ now, Instr.tick 0 = .tick now)
    ∧ exec (.tick 0) { State.resetWith confA with points := [] } = .next { State.resetWith confA with points := [] }
    ∧ (∀ now, Instr.cmdGet ret0 ≠ .tick now)
    ∧ exec (.cmdGet ret0) (State.resetWith confA) =
        .next { State.resetWith confA with out := [.packet (ret0.toPacket 0x06)] } :=
  ⟨⟨0, rfl⟩, by simp only [eq_next_iff]; decide +kernel, fun _ => Instr.noConfusion, by simp only [eq_next_iff]; decide +kernel⟩

theorem witness_OnlyWriteSetsDirtyAndTarget :
    (∀ now j v, Instr.tick 0 ≠ .write now j v)
    ∧ exec (.tick 0) (State.resetWith confA) = .next { withPoints { freshP0 with getCount := 1 } freshP1 with
        out := [.tx [0x23, 0x3D, 0xFF, 0xF4, 0xF9, 0xEE, 0xCC, 0xDD, 0xBB, 0xEA, 0x88]] }
    ∧ (State.resetWith confA).points[0]? = some freshP0 :=
  ⟨fun _ _ _ => Instr.noConfusion, by simp only [eq_next_iff]; decide +kernel, by decide +kernel⟩

end Sys2Proof.Tests
end

/-! The two rows that no builder and no parser answers (30_encoding.md R82, R85; 42_builders.md R146). -/

namespace Sys2Proof.Machine

/-- Selectors `11xx` have no builder (R85, R146): nothing of the state is read. -/
@[simp] theorem exec_selUnused (low : BitVec 2) (a : BuildArgs) (s : State) :
    exec (.selUnused low a) s = .refused .unusedSelector := rfl

/-- Code 7 has no parser (R82): nothing of the state is read. -/
@[simp] theorem exec_parseUnused7 (p : List Byte) (s : State) :
    exec (.parseUnused7 p) s = .refused .unusedParser := rfl

/-- Settles O60, from the two rows' own equations. -/
theorem unusedSelectorsAreRefused : Obligations.UnusedSelectorsAreRefused :=
  fun low a p s => ⟨exec_selUnused low a s, exec_parseUnused7 p s⟩

end Sys2Proof.Machine

/-! The CRC calculator as an instruction (40_crc.md R100): the answer port holds the CRC, which is the CRC in numbers. -/

namespace Sys2Proof.Machine

/-- CRC16 leaves the CRC of its bytes on the answer port, whatever the state (R100, logs 5 and 21). -/
@[simp] theorem exec_crc16 (bytes : List Byte) (s : State) :
    exec (.crc16 bytes) s = .next (s.answer (.crc (crc16 bytes))) := rfl

/-- The CRC in numbers fits the 16-bit register. -/
theorem crcNat_lt (bytes : List Byte) : crcNat bytes < 2 ^ 16 :=
  crcNat_eq_crc16 bytes ▸ (crc16 bytes).isLt

/-- The CRC in numbers, as a 16-bit word, is the CRC. -/
theorem ofNat_crcNat (bytes : List Byte) : BitVec.ofNat 16 (crcNat bytes) = crc16 bytes := by
  rw [crcNat_eq_crc16, BitVec.ofNat_toNat, BitVec.setWidth_eq]

/-- Settles O10: `crcNat_eq_crc16` carries the model's fold of `crcByte` over to the shift algorithm in numbers. -/
theorem crc16ReturnsTheBitwiseCrc : Obligations.Crc16ReturnsTheBitwiseCrc := by
  intro bytes s
  refine ⟨crcNat_lt bytes, ?_⟩
  rw [exec_crc16, ofNat_crcNat, State.answer]

end Sys2Proof.Machine

/-! The 16- and 32-bit parsers (41_packet_model.md R115, R117, R121): what they compute on each payload length, and that their
rows leave exactly that on the answer port. -/

namespace Sys2Proof.Machine

/-- `parse_i16` reads two bytes after the qualifier (R115). -/
@[simp] theorem parseSigned16_qualified (q hi lo : Byte) :
    parseSigned16 [q, hi, lo] = (asSigned 16 (hi.toNat * 2 ^ 8 + lo.toNat), true) := by
  rw [parseSigned16, toInt_two_bytes]

/-- `parse_i16` gives the default pair on any other length (R121, D18). -/
theorem parseSigned16_of_length_ne {p : List Byte} (h : p.length ≠ 3) : parseSigned16 p = (0, false) := by
  unfold parseSigned16
  split
  case h_1 => exact absurd rfl h
  case h_2 => rfl

/-- `parse_i32` reads four bytes after the qualifier (R117). -/
@[simp] theorem parseSigned32_qualified (q b3 b2 b1 b0 : Byte) :
    parseSigned32 [q, b3, b2, b1, b0] =
      (asSigned 32 (b3.toNat * 2 ^ 24 + b2.toNat * 2 ^ 16 + b1.toNat * 2 ^ 8 + b0.toNat), true) := by
  rw [parseSigned32, toInt_four_bytes]

/-- `parse_i32` gives the default pair on any other length (R121, D18). -/
theorem parseSigned32_of_length_ne {p : List Byte} (h : p.length ≠ 5) : parseSigned32 p = (0, false) := by
  unfold parseSigned32
  split
  case h_1 => exact absurd rfl h
  case h_2 => rfl

/-- PARSE_I16 leaves what `parse_i16` computes on the answer port, whatever the state (logs 5 and 21). -/
@[simp] theorem exec_parseI16 (p : List Byte) (s : State) :
    exec (.parseI16 p) s = .next (s.answer (.parsed (.int (parseSigned16 p).1) (parseSigned16 p).2)) := rfl

/-- The row PARSE_I16 returns the pair that `parse_i16` gives. -/
theorem returnsValue_parseI16 {p : List Byte} {z : Int} {ok : Bool} (h : parseSigned16 p = (z, ok)) (s : State) :
    ReturnsValue (.parseI16 p) s (.int z) ok := by
  rw [ReturnsValue, exec_parseI16, h, State.answer]

/-- PARSE_I32 leaves what `parse_i32` computes on the answer port, whatever the state (logs 5 and 21). -/
@[simp] theorem exec_parseI32 (p : List Byte) (s : State) :
    exec (.parseI32 p) s = .next (s.answer (.parsed (.int (parseSigned32 p).1) (parseSigned32 p).2)) := rfl

/-- The row PARSE_I32 returns the pair that `parse_i32` gives. -/
theorem returnsValue_parseI32 {p : List Byte} {z : Int} {ok : Bool} (h : parseSigned32 p = (z, ok)) (s : State) :
    ReturnsValue (.parseI32 p) s (.int z) ok := by
  rw [ReturnsValue, exec_parseI32, h, State.answer]

/-- Settles O23: each row returns its parser's pair, and the payload's length decides which pair that is. -/
theorem wordParsersReadSignedBigEndian : Obligations.WordParsersReadSignedBigEndian := by
  intro s
  refine ⟨fun q b1 b0 => ?_, fun p h => ?_, fun q b3 b2 b1 b0 => ?_, fun p h => ?_⟩
  · exact returnsValue_parseI16 (parseSigned16_qualified q b1 b0) s
  · exact returnsValue_parseI16 (parseSigned16_of_length_ne h) s
  · exact returnsValue_parseI32 (parseSigned32_qualified q b3 b2 b1 b0) s
  · exact returnsValue_parseI32 (parseSigned32_of_length_ne h) s

end Sys2Proof.Machine

/-! The builders' rows (42_builders.md R130 to R141): each leaves its packet on the answer port, a packet whose header and
payload are the row's and whose length and CRC are filled in. -/

namespace Sys2Proof.Machine

/-! ### What the rows answer, whatever the state (logs 5 and 21) -/

@[simp] theorem exec_buildGet (e : BitVec 3) (src : BusAddr) (dst : Byte) (field : FieldId) (s : State) :
    exec (.buildGet e src dst field) s = .next (s.answer (.packet (buildGetPacket src dst field))) := rfl

section Rows

variable (a : BuildArgs) (s : State)

@[simp] theorem exec_setU8 :
    exec (.setU8 a) s = .next (s.answer (.packet (setPacket a (qualifiedPayload .uint8 a)))) := rfl

@[simp] theorem exec_infU8 :
    exec (.infU8 a) s = .next (s.answer (.packet (infoPacket a (qualifiedPayload .uint8 a)))) := rfl

@[simp] theorem exec_setI8 :
    exec (.setI8 a) s = .next (s.answer (.packet (setPacket a (qualifiedPayload .int8 a)))) := rfl

@[simp] theorem exec_infI8 :
    exec (.infI8 a) s = .next (s.answer (.packet (infoPacket a (qualifiedPayload .int8 a)))) := rfl

@[simp] theorem exec_setI16 :
    exec (.setI16 a) s = .next (s.answer (.packet (setPacket a (qualifiedPayload .int16 a)))) := rfl

@[simp] theorem exec_infI16 :
    exec (.infI16 a) s = .next (s.answer (.packet (infoPacket a (qualifiedPayload .int16 a)))) := rfl

@[simp] theorem exec_setI32 :
    exec (.setI32 a) s = .next (s.answer (.packet (setPacket a (qualifiedPayload .int32 a)))) := rfl

@[simp] theorem exec_infI32 :
    exec (.infI32 a) s = .next (s.answer (.packet (infoPacket a (qualifiedPayload .int32 a)))) := rfl

end Rows

/-! ### The fields of a filled packet -/

/-- Filling in the length and the CRC leaves the other fields of the packet a row answers (R110). -/
theorem returnsPacket_of_exec_fillPacket {i : Instr} {s : State} {p : Packet}
    (h : exec i s = .next (s.answer (.packet (fillPacket p)))) :
    ReturnsPacket i s p.cmd p.src p.dst p.field p.payload :=
  ⟨_, _, h⟩

/-- The payload of a Set or an Info begins with the qualifier (R81, R132), then come the value bytes. -/
theorem qualifiedPayload_eq (enc : Encoding) (a : BuildArgs) :
    qualifiedPayload enc a = sentQualifier a :: valueBytes enc a.value := by
  rw [qualifiedPayload, qualifier_eq_sent]

/-- A row that answers a Set returns command 0x03 to the given destination (R131). -/
theorem returnsPacket_of_exec_setPacket {i : Instr} {s : State} {a : BuildArgs} {enc : Encoding}
    (h : exec i s = .next (s.answer (.packet (setPacket a (qualifiedPayload enc a))))) :
    ReturnsPacket i s 0x03 a.src a.dst a.field (sentQualifier a :: valueBytes enc a.value) := by
  rw [qualifiedPayload_eq] at h
  exact returnsPacket_of_exec_fillPacket h

/-- A row that answers an Info returns command 0x02 to 0x7F, whatever the destination operand is (R131). -/
theorem returnsPacket_of_exec_infoPacket {i : Instr} {s : State} {a : BuildArgs} {enc : Encoding}
    (h : exec i s = .next (s.answer (.packet (infoPacket a (qualifiedPayload enc a))))) :
    ReturnsPacket i s 0x02 a.src 0x7F a.field (sentQualifier a :: valueBytes enc a.value) := by
  rw [qualifiedPayload_eq] at h
  exact returnsPacket_of_exec_fillPacket h

/-- Settles O15: BUILD_GET answers the filled Get, and reads none of its three bits. -/
theorem buildGetReturnsAnEmptyGet : Obligations.BuildGetReturnsAnEmptyGet :=
  fun e src dst field s => returnsPacket_of_exec_fillPacket (exec_buildGet e src dst field s)

/-! ### The integer encodings of integers (R133) -/

/-- Inside its domain a UInt8 value is encoded as itself. -/
theorem valueCode_uint8_natCast {n : Nat} (hn : n ≤ 255) : valueCode .uint8 (n : Rat) = BitVec.ofInt 32 n := by
  have hdom : inDomain .uint8 (n : Rat) = true := (intWithin_eq_true_iff 0 255 n).mpr ⟨n, by simp, by omega, by omega⟩
  simp [valueCode, hdom]

/-! A signed encoding has a code for every integer, in its domain or not: the integer in 32 bits, of which the value bytes are
the low ones (R136 to R141). -/

@[simp] theorem valueCode_int8_intCast (z : Int) : valueCode .int8 (z : Rat) = BitVec.ofInt 32 z := by
  simp [valueCode]

@[simp] theorem valueCode_int16_intCast (z : Int) : valueCode .int16 (z : Rat) = BitVec.ofInt 32 z := by
  simp [valueCode]

@[simp] theorem valueCode_int32_intCast (z : Int) : valueCode .int32 (z : Rat) = BitVec.ofInt 32 z := by
  simp [valueCode]

/-- The byte of a UInt8 value in its domain is the value. -/
theorem valueByte_uint8_natCast {n : Nat} (hn : n ≤ 255) :
    ((valueCode .uint8 (n : Rat)).extractLsb' 0 8).toNat = n := by
  have hbyte := ofInt_byte n
  rw [valueCode_uint8_natCast hn]
  omega

/-- Settles O16: a row's two answers share one payload, whose value byte is the low byte of the value's encoding. -/
theorem byteBuildersReturnSetAndInfo : Obligations.ByteBuildersReturnSetAndInfo := by
  intro a s
  constructor
  case left =>
    refine ⟨(valueCode .uint8 a.value).extractLsb' 0 8, returnsPacket_of_exec_setPacket (exec_setU8 a s),
      returnsPacket_of_exec_infoPacket (exec_infU8 a s), fun n hn hv => ?_⟩
    rw [hv, valueByte_uint8_natCast hn]
  case right =>
    refine ⟨(valueCode .int8 a.value).extractLsb' 0 8, returnsPacket_of_exec_setPacket (exec_setI8 a s),
      returnsPacket_of_exec_infoPacket (exec_infI8 a s), fun z hv => ?_⟩
    rw [hv, valueCode_int8_intCast, ofInt_byte]

/-- Settles O17: a row's two answers share one payload, whose value bytes are those of the value's encoding, high byte
first. -/
theorem wordBuildersReturnSetAndInfo : Obligations.WordBuildersReturnSetAndInfo := by
  intro a s
  constructor
  case left =>
    refine ⟨_, _, returnsPacket_of_exec_setPacket (exec_setI16 a s),
      returnsPacket_of_exec_infoPacket (exec_infI16 a s), fun z hv => ?_⟩
    rw [hv, valueCode_int16_intCast, ofInt_two_bytes]
  case right =>
    refine ⟨_, _, _, _, returnsPacket_of_exec_setPacket (exec_setI32 a s),
      returnsPacket_of_exec_infoPacket (exec_infI32 a s), fun z hv => ?_⟩
    rw [hv, valueCode_int32_intCast, ofInt_four_bytes]

end Sys2Proof.Machine

/-! The receiver (43_receiver.md): outside `Crc1` an accepted FEED writes the clock and advances the registers, so each state's
rule is an equation about `Receiver.advance`; and no other instruction writes a receiver register (R165). -/

namespace Sys2Proof.Machine

/-- Outside `Crc1` an accepted FEED changes the clock and the receiver registers only (R150). -/
theorem exec_feed_of_ne_crc1 {s : State} {now : Nat} (b : Byte) (h : s.Accepts now) (hs : s.rx.state ≠ .crc1) :
    exec (.feed now (b ^^^ 0xFF)) s = .next { s with lastNow := now, rx := s.rx.advance b } := by
  rw [exec_feed_accepted b h, State.rxStep_of_ne_crc1 (s.setLastNow now) now b hs]
  rfl

/-! ### How the registers advance, state by state -/

section Advance

variable {r : Receiver} (b : Byte)

/-- In `Start` only the start byte 0xDC is kept (R151). -/
theorem Receiver.advance_of_start (h : r.state = .start) :
    r.advance b = if b = 0xDC then { r with buf := [b], state := .sourceAddr } else { r with buf := [], state := .start } := by
  simp only [Receiver.advance, h]
  rfl

/-- A byte without the marker bit is one below 128 (R51). -/
theorem and_srcMark_eq_zero_iff : b &&& srcMark = 0 ↔ b.toNat < 128 := by
  have hmark : srcMark = BitVec.twoPow 8 7 := rfl
  have hmsb : b.getLsbD 7 = decide (128 ≤ b.toNat) := BitVec.msb_eq_decide b
  rw [hmark, BitVec.and_twoPow, hmsb]
  by_cases h : 128 ≤ b.toNat
  · simp [h]
  · simp [h, Nat.lt_of_not_le h]

/-- The low seven bits of a byte, in numbers. -/
theorem extractLsb_zero_seven : b.extractLsb' 0 7 = BitVec.ofNat 7 (b.toNat % 128) := by
  apply BitVec.eq_of_toNat_eq
  simp

/-- In `SourceAddr` a byte without the marker drops the frame, any other holds the address in its low bits (R152). -/
theorem Receiver.advance_of_sourceAddr (h : r.state = .sourceAddr) :
    r.advance b = if b.toNat < 128 then { r with buf := [], state := .start }
      else { r with buf := r.buf ++ [b], src := BitVec.ofNat 7 (b.toNat % 128), state := .destAddr } := by
  simp only [Receiver.advance, h, Receiver.onSourceAddr, and_srcMark_eq_zero_iff, extractLsb_zero_seven]
  rfl

/-- In `Command` every byte is kept raw (R155). -/
theorem Receiver.advance_of_command (h : r.state = .command) :
    r.advance b = { r with buf := r.buf ++ [b], cmd := b, field := 0, state := .field0 } := by
  simp only [Receiver.advance, h]
  rfl

/-- A field byte enters the field register from the right, in numbers (R156). -/
theorem Receiver.onField_eq (next : RxState) :
    r.onField b next = { r with
      buf := r.buf ++ [b], field := BitVec.ofNat 32 (r.field.toNat * 2 ^ 8 + b.toNat), state := next } := by
  rw [Receiver.onField, fieldPush_eq_add]
  rfl

/-- After `Field3` the payload follows only if the length is above 11 (R159). -/
theorem Receiver.advance_of_field3 (h : r.state = .field3) :
    r.advance b = r.onField b (if 11 < r.len.toNat then .payload else .crc0) := by
  simp only [Receiver.advance, h]
  rfl

/-- In `Payload` every byte is kept, and the CRC follows when all but its two bytes are there (R160). -/
theorem Receiver.advance_of_payload (h : r.state = .payload) :
    r.advance b = { r with
      buf := r.buf ++ [b]
      state := if ((r.buf.length + 1 : Nat) : Int) = r.len.toNat - 2 then .crc0 else .payload } := by
  have hcount : ((r.buf.length + 1 : Nat) : Int) = r.len.toNat - 2 ↔ r.buf.length + 1 + 2 = r.len.toNat := by omega
  simp only [Receiver.advance, h, hcount]
  rfl

/-- A byte in the high half of the CRC register, in numbers (R161). -/
theorem zeroExtend_shiftLeft_eight : (b.zeroExtend 16 : Crc) <<< 8 = BitVec.ofNat 16 (b.toNat * 2 ^ 8) := by
  apply BitVec.eq_of_toNat_eq
  simp [Nat.shiftLeft_eq]

/-- In `Crc0` the byte becomes the high half of the CRC register (R161). -/
theorem Receiver.advance_of_crc0 (h : r.state = .crc0) :
    r.advance b = { r with buf := r.buf ++ [b], crc := BitVec.ofNat 16 (b.toNat * 2 ^ 8), state := .crc1 } := by
  simp only [Receiver.advance, h, Receiver.onCrc0, zeroExtend_shiftLeft_eight]
  rfl

end Advance

/-! ### The obligations -/

/-- Settles O26. -/
theorem feedInStartSeeksTheStartByte : Obligations.FeedInStartSeeksTheStartByte := by
  intro s now b h hs
  rw [exec_feed_of_ne_crc1 b h (by simp [hs]), Receiver.advance_of_start b hs]

/-- Settles O27. -/
theorem feedInSourceAddrNeedsTheMarker : Obligations.FeedInSourceAddrNeedsTheMarker := by
  intro s now b h hs
  rw [exec_feed_of_ne_crc1 b h (by simp [hs]), Receiver.advance_of_sourceAddr b hs]

/-- Settles O29. -/
theorem feedInCommandKeepsTheRawByte : Obligations.FeedInCommandKeepsTheRawByte := by
  intro s now b h hs
  rw [exec_feed_of_ne_crc1 b h (by simp [hs]), Receiver.advance_of_command b hs]

/-- Settles O30: the four states share the rule `onField`, and differ in the state that follows. -/
theorem feedCollectsTheFieldId : Obligations.FeedCollectsTheFieldId := by
  intro s now b h here next hmem hs
  obtain ⟨hne, hadv⟩ : s.rx.state ≠ .crc1 ∧ s.rx.advance b = s.rx.onField b next := by
    simp only [List.mem_cons, List.not_mem_nil, or_false, Prod.mk.injEq] at hmem
    rcases hmem with ⟨rfl, rfl⟩ | ⟨rfl, rfl⟩ | ⟨rfl, rfl⟩ | ⟨rfl, rfl⟩
    · exact ⟨by simp [hs], by simp only [Receiver.advance, hs]⟩
    · exact ⟨by simp [hs], by simp only [Receiver.advance, hs]⟩
    · exact ⟨by simp [hs], by simp only [Receiver.advance, hs]⟩
    · exact ⟨by simp [hs], Receiver.advance_of_field3 b hs⟩
  rw [exec_feed_of_ne_crc1 b h hne, hadv, Receiver.onField_eq]

/-- Settles O31. -/
theorem feedInPayloadCountsToTheLength : Obligations.FeedInPayloadCountsToTheLength := by
  intro s now b h hs
  rw [exec_feed_of_ne_crc1 b h (by simp [hs]), Receiver.advance_of_payload b hs]

/-- Settles O32. -/
theorem feedInCrc0TakesTheHighByte : Obligations.FeedInCrc0TakesTheHighByte := by
  intro s now b h hs
  rw [exec_feed_of_ne_crc1 b h (by simp [hs]), Receiver.advance_of_crc0 b hs]

/-- Settles O57: of the effects an instruction can have, only a FEED's receiver step writes a receiver register. -/
theorem onlyFeedMovesTheReceiver : Obligations.OnlyFeedMovesTheReceiver := by
  intro i s t hi hexec
  cases effect_of_exec i s t hexec with
  | feed now raw hfeed => exact absurd hfeed (hi now raw)
  | same | raise | answer | tick | write => rfl
  | deliver cmd f => exact State.deliver_rx s _ _

end Sys2Proof.Machine

/-! The frame rows without a value (44_scheduler.md R193, R194): what a delivery is for an Ack or a Nack, and that for every
command but Info, Ack, Nack and Ret it is the PacketEvent alone. -/

namespace Sys2Proof.Machine

/-- A command byte without a point effect (R194): none of Info, Ack, Nack and Ret. -/
def OnlyAnnounces (cmd : Byte) : Prop :=
  cmd ∉ [cmdInfo, cmdAckCode, cmdNackCode, cmdRetCode]

/-- Below 256 only the numbers 2, 4, 5 and 7 name a command with a point effect (R72). -/
theorem onlyAnnounces_ofNat {n : Nat} (hlt : n < 256) (hn : n ∉ [2, 4, 5, 7]) : OnlyAnnounces (BitVec.ofNat 8 n) := by
  simp only [OnlyAnnounces, cmdInfo, cmdAckCode, cmdNackCode, cmdRetCode, List.mem_cons, List.not_mem_nil, or_false,
    not_or, ← BitVec.toNat_inj, BitVec.toNat_ofNat, Nat.mod_eq_of_lt hlt] at hn ⊢
  exact hn

/-! ### Dispatch by command -/

/-- A point takes part in a commit exactly when it is writable and its field id matches. -/
theorem Point.isWritable_and_matchesField_iff (p : Point) (field : FieldId) :
    (p.isWritable && p.matchesField field) = true ↔ p.conf.kind = .writable ∧ p.conf.fieldId = field := by
  rw [Bool.and_eq_true, Point.isWritable_iff, Point.matchesField, beq_iff_eq]

/-- Delivering an Ack or a Nack emits its packet and commits the write of every matching writable point (R164, R193). -/
theorem State.deliver_of_ack_or_nack (s : State) {pkt : Packet} (now : Nat)
    (h : pkt.cmd = cmdAckCode ∨ pkt.cmd = cmdNackCode) :
    s.deliver pkt now = { s with
      points := s.points.map fun p =>
        if p.conf.kind = .writable ∧ p.conf.fieldId = pkt.field then { p with dirty := false, setCount := 0 } else p
      out := s.out ++ [.packet pkt] } := by
  have hvalue : ¬ (pkt.cmd = cmdInfo ∨ pkt.cmd = cmdRetCode) := by
    rcases h with h | h <;> rw [h] <;> decide
  rw [State.deliver, State.dispatch, if_neg hvalue, if_pos h, State.commitMatching]
  simp only [Point.isWritable_and_matchesField_iff]
  rfl

/-- Delivering a packet of any other command emits it and does nothing else (R164, R194). -/
theorem State.deliver_of_onlyAnnounces (s : State) {pkt : Packet} (now : Nat) (h : OnlyAnnounces pkt.cmd) :
    s.deliver pkt now = s.emit [.packet pkt] := by
  simp only [OnlyAnnounces, List.mem_cons, List.not_mem_nil, or_false, not_or] at h
  obtain ⟨hinfo, hack, hnack, hret⟩ := h
  rw [State.deliver, State.dispatch, if_neg (not_or.mpr ⟨hinfo, hret⟩), if_neg (not_or.mpr ⟨hack, hnack⟩)]

/-! ### The rows -/

/-- Without a fault a frame row is the delivery of its packet at `S.last_now` (R164, log 7). -/
theorem deliverFrame_of_fault_none {s : State} (cmd : Byte) (f : Frame) (hf : s.fault = none) :
    deliverFrame cmd f s = .next (s.deliver (f.toPacket cmd) s.lastNow) :=
  State.unlessFaulted_clear _ hf

/-- The command byte of an opaque row is the row's first tag plus the low bits (R73). -/
theorem opaqueCommand_two_pow {k : Nat} (low : BitVec k) :
    opaqueCommand (BitVec.ofNat 8 (2 ^ k)) low = BitVec.ofNat 8 (2 ^ k + low.toNat) := by
  have hor : 2 ^ k + low.toNat = 2 ^ k ||| low.toNat := by
    simpa using Nat.two_pow_add_eq_or_of_lt low.isLt 1
  rw [hor, BitVec.ofNat_or, BitVec.ofNat_toNat]
  rfl

/-- Settles O38: the two rows deliver, and their command bytes are the two that commit. -/
theorem ackAndNackCommitMatchingWrites : Obligations.AckAndNackCommitMatchingWrites := by
  intro f s hf i cmd hmem
  obtain ⟨hrow, hcmd⟩ : exec i s = deliverFrame cmd f s ∧ (cmd = cmdAckCode ∨ cmd = cmdNackCode) := by
    simp only [List.mem_cons, List.not_mem_nil, or_false, Prod.mk.injEq] at hmem
    rcases hmem with ⟨rfl, rfl⟩ | ⟨rfl, rfl⟩
    · exact ⟨rfl, .inl rfl⟩
    · exact ⟨rfl, .inr rfl⟩
  rw [hrow, deliverFrame_of_fault_none cmd f hf, State.deliver_of_ack_or_nack s s.lastNow hcmd]
  rfl

/-- Settles O39: every row of the list delivers its own command byte, which is none of the four with a point effect. -/
theorem otherCommandsOnlyAnnounce : Obligations.OtherCommandsOnlyAnnounce := by
  intro f s l3 l4 l5 l6 l7 hf i n hmem
  have hopaque {k : Nat} (low : BitVec k) :
      deliverFrame (opaqueCommand (BitVec.ofNat 8 (2 ^ k)) low) f s
        = deliverFrame (BitVec.ofNat 8 (2 ^ k + low.toNat)) f s := by
    rw [opaqueCommand_two_pow]
  obtain ⟨hrow, hlt, hn⟩ : exec i s = deliverFrame (BitVec.ofNat 8 n) f s ∧ n < 256 ∧ n ∉ [2, 4, 5, 7] := by
    simp only [List.mem_cons, List.not_mem_nil, or_false, Prod.mk.injEq] at hmem ⊢
    rcases hmem with ⟨rfl, rfl⟩ | ⟨rfl, rfl⟩ | ⟨rfl, rfl⟩ | ⟨rfl, rfl⟩ | ⟨rfl, rfl⟩ | ⟨rfl, rfl⟩ | ⟨rfl, rfl⟩ | ⟨rfl, rfl⟩
      | ⟨rfl, rfl⟩
    · exact ⟨rfl, by omega, by omega⟩
    · exact ⟨rfl, by omega, by omega⟩
    · exact ⟨rfl, by omega, by omega⟩
    · exact ⟨rfl, by omega, by omega⟩
    · exact ⟨hopaque l3, by omega, by omega⟩
    · exact ⟨hopaque l4, by omega, by omega⟩
    · exact ⟨hopaque l5, by omega, by omega⟩
    · exact ⟨hopaque l6, by omega, by omega⟩
    · exact ⟨hopaque l7, by omega, by omega⟩
  rw [hrow, deliverFrame_of_fault_none _ f hf,
    State.deliver_of_onlyAnnounces s s.lastNow (onlyAnnounces_ofNat hlt hn)]
  rfl

end Sys2Proof.Machine

/-! The CRC residue (40_crc.md R103), and the decoder against the encoder (30_encoding.md): a byte sequence decodes as a frame
exactly when it is the encoding of a valid one, and every selector's row encodes as that selector. -/

namespace Sys2Proof.Machine

/-! ### Words and their bytes -/

/-- Two bytes joined split into themselves. -/
@[simp] theorem bytes16_append (hi lo : Byte) : bytes16 (hi ++ lo) = [hi, lo] := by
  simp [bytes16, extractLsb_append2]

/-- Four bytes joined split into themselves. -/
@[simp] theorem bytes32_append (b3 b2 b1 b0 : Byte) : bytes32 (b3 ++ b2 ++ b1 ++ b0) = [b3, b2, b1, b0] := by
  simp only [bytes32, extractLsb_append4]

/-- A word is its two bytes joined. -/
theorem append_bytes16 (c : Crc) : c.extractLsb' 8 8 ++ c.extractLsb' 0 8 = c := by
  apply BitVec.eq_of_toNat_eq
  have hlt := c.isLt
  simp only [append_byte_toNat, BitVec.extractLsb'_toNat, Nat.shiftRight_eq_div_pow]
  omega

/-- A word is its four bytes joined. -/
theorem append_bytes32 (f : FieldId) :
    f.extractLsb' 24 8 ++ f.extractLsb' 16 8 ++ f.extractLsb' 8 8 ++ f.extractLsb' 0 8 = f := by
  apply BitVec.eq_of_toNat_eq
  have hlt := f.isLt
  simp only [append_byte_toNat, BitVec.extractLsb'_toNat, Nat.shiftRight_eq_div_pow]
  omega

/-- The source byte holds the address in its low bits (R51). -/
@[simp] theorem extractLsb_sourceByte (src : BusAddr) : (sourceByte src).extractLsb' 0 7 = src := by
  revert src; decide +kernel

/-- The source byte carries the marker bit (R51). -/
@[simp] theorem sourceByte_and_srcMark_ne (src : BusAddr) : sourceByte src &&& srcMark ≠ 0 := by
  revert src; decide +kernel

/-- A byte with the marker bit is the source byte of its low bits (R51). -/
theorem sourceByte_extractLsb {b : Byte} (h : b &&& srcMark ≠ 0) : sourceByte (b.extractLsb' 0 7) = b := by
  revert b; decide +kernel

/-! ### The CRC (R100, R103) -/

/-- A byte enters the CRC by its exclusive or with the high byte alone. -/
theorem crcByte_eq_crcByte_zero (c : Crc) (b : Byte) : crcByte c b = crcByte (c ^^^ (b.zeroExtend 16 <<< 8)) 0 := by
  simp [crcByte]

/-- A word's high byte cleared by exclusive or leaves the low byte. -/
theorem xor_high_byte (c : Crc) :
    c ^^^ ((c.extractLsb' 8 8).zeroExtend 16 <<< 8) = (c.extractLsb' 0 8).zeroExtend 16 := by
  ext i hi
  grind

/-- With the high byte zero the eight shifts never meet the polynomial. -/
theorem crcByte_zeroExtend (b : Byte) : crcByte (b.zeroExtend 16) 0 = b.zeroExtend 16 <<< 8 := by
  revert b; decide +kernel

/-- A CRC shifted into itself is zero: its high byte cancels, then its low byte. -/
theorem foldl_crcByte_bytes16 (c : Crc) : (bytes16 c).foldl crcByte c = 0 := by
  calc (bytes16 c).foldl crcByte c
      = crcByte (crcByte c (c.extractLsb' 8 8)) (c.extractLsb' 0 8) := rfl
    _ = crcByte ((c.extractLsb' 0 8).zeroExtend 16 <<< 8) (c.extractLsb' 0 8) := by
        rw [crcByte_eq_crcByte_zero c, xor_high_byte, crcByte_zeroExtend]
    _ = 0 := by rw [crcByte_eq_crcByte_zero, BitVec.xor_self]; rfl

/-- A message followed by its CRC has CRC zero (R103). -/
theorem crc16_append_bytes16_crc16 (m : List Byte) : crc16 (m ++ bytes16 (crc16 m)) = 0 := by
  rw [crc16_append, foldl_crcByte_bytes16]

/-- Zero bytes leave the initial value 0 as it is (R100). -/
theorem crc16_replicate_zero (n : Nat) : crc16 (List.replicate n 0) = 0 := by
  induction n with
  | zero => rfl
  | succ n ih => exact ih

/-- Settles O11: the residue is `crc16_append_bytes16_crc16`, and leading zeros leave the initial value. -/
theorem crcResidueIsZeroAndLeadingZerosAreInvisible : Obligations.CrcResidueIsZeroAndLeadingZerosAreInvisible := by
  refine ⟨crc16_append_bytes16_crc16, fun m n => ?_⟩
  rw [crc16_append, crc16_replicate_zero]
  rfl

/-! ### The bytes of a frame (R70) -/

/-- A completed frame byte by byte. -/
theorem encodeFrame_eq (cmd : Byte) (f : Frame) :
    encodeFrame cmd f = startByte :: sourceByte f.src :: f.dst :: f.len :: cmd
      :: f.field.extractLsb' 24 8 :: f.field.extractLsb' 16 8 :: f.field.extractLsb' 8 8 :: f.field.extractLsb' 0 8
      :: (f.payload ++ [f.crc.extractLsb' 8 8, f.crc.extractLsb' 0 8]) := rfl

/-- A frame has eleven bytes beside its payload (R71). -/
@[simp] theorem length_encodeFrame (cmd : Byte) (f : Frame) : (encodeFrame cmd f).length = 11 + f.payload.length := by
  simp only [encodeFrame_eq, List.length_cons, List.length_append, List.length_nil]
  omega

/-- A frame is valid when its length byte and its CRC are those of its bytes (R71, R163). -/
theorem frame_wf_iff (cmd : Byte) (f : Frame) :
    f.wf cmd = true ↔ f.len.toNat = 11 + f.payload.length ∧ f.crc = crc16 (receivedBody cmd f) := by
  simp [Frame.wf, minFrameLen]

/-- The fields read from a valid frame's bytes are the frame's. -/
theorem frameFields_of_bytes (f : Frame) :
    frameFields (sourceByte f.src) f.dst f.len (f.field.extractLsb' 24 8) (f.field.extractLsb' 16 8)
      (f.field.extractLsb' 8 8) (f.field.extractLsb' 0 8) f.payload (f.crc.extractLsb' 8 8) (f.crc.extractLsb' 0 8) = f := by
  simp only [frameFields, extractLsb_sourceByte, append_bytes32, append_bytes16]

/-- The bytes of a valid frame decode to the row of its command byte. -/
theorem decodeFrame_encodeFrame {cmd : Byte} {f : Frame} (h : f.wf cmd = true) :
    decodeFrame (encodeFrame cmd f) = .ok (instrOfCommand cmd f) := by
  obtain ⟨hlen, hcrc⟩ := (frame_wf_iff cmd f).mp h
  have hn : f.len.toNat - minFrameLen = f.payload.length := by rw [hlen]; exact Nat.add_sub_cancel_left 11 _
  have hshort : ¬ f.len.toNat < minFrameLen := by rw [hlen]; exact Nat.not_lt.mpr (Nat.le_add_right _ _)
  rw [encodeFrame_eq, decodeFrame, if_neg (by simp), if_neg (sourceByte_and_srcMark_ne f.src), if_neg hshort, hn, decodeTail,
    List.drop_left, List.take_left]
  simp only [frameFields_of_bytes, ← hcrc, if_true]

/-- What `decodeTail` reads is the payload the length byte announces and a matching CRC. -/
theorem decodeTail_eq_ok {cmd : Byte} {frameOf : List Byte → Byte → Byte → Frame} {n : Nat} {rest : List Byte} {i : Instr}
    (h : decodeTail cmd frameOf n rest = .ok i) :
    ∃ payload hi lo, payload.length = n ∧ rest = payload ++ [hi, lo]
      ∧ (frameOf payload hi lo).crc = crc16 (receivedBody cmd (frameOf payload hi lo))
      ∧ i = instrOfCommand cmd (frameOf payload hi lo) := by
  unfold decodeTail at h
  split at h
  case h_1 hi lo hdrop =>
    dsimp only at h
    split at h
    case isTrue hcrc =>
      have hlength : (rest.drop n).length = 2 := by rw [hdrop]; rfl
      rw [List.length_drop] at hlength
      refine ⟨rest.take n, hi, lo, List.length_take_of_le (by omega), ?_, hcrc, by injection h with h; exact h.symm⟩
      rw [← hdrop, List.take_append_drop]
    case isFalse => cases h
  case h_2 => cases h

/-- A byte sequence that decodes as a frame is the encoding of a valid frame, and its row is that of the command byte
(R70, R163). -/
theorem decodeFrame_eq_ok {bytes : List Byte} {i : Instr} (h : decodeFrame bytes = .ok i) :
    ∃ cmd f, f.wf cmd = true ∧ bytes = encodeFrame cmd f ∧ i = instrOfCommand cmd f := by
  unfold decodeFrame at h
  split at h
  case h_2 => cases h
  case h_1 start src dst len cmd f0 f1 f2 f3 rest =>
    split at h
    case isTrue => cases h
    case isFalse hstart =>
    split at h
    case isTrue => cases h
    case isFalse hsrc =>
    split at h
    case isTrue => cases h
    case isFalse hshort =>
    obtain ⟨payload, hi, lo, hn, rfl, hcrc, rfl⟩ := decodeTail_eq_ok h
    refine ⟨cmd, _, (frame_wf_iff _ _).mpr ⟨?_, hcrc⟩, ?_, rfl⟩
    · change len.toNat = minFrameLen + payload.length
      omega
    · have hbytes : encodeFrame cmd (frameFields src dst len f0 f1 f2 f3 payload hi lo)
          = startByte :: sourceByte (src.extractLsb' 0 7) :: dst :: len :: cmd
            :: (bytes32 (f0 ++ f1 ++ f2 ++ f3) ++ payload ++ bytes16 (hi ++ lo)) := rfl
      rw [hbytes, sourceByte_extractLsb hsrc, bytes32_append, bytes16_append, Decidable.not_not.mp hstart]
      simp

/-- The row of a command byte encodes as the frame with that byte. -/
@[simp] theorem encode_instrOfCommand (cmd : Byte) (f : Frame) :
    encode (instrOfCommand cmd f) = .frame (encodeFrame cmd f) :=
  instrOfCommand_apply encode (fun c => .frame (encodeFrame c f)) f rfl rfl rfl rfl rfl rfl rfl rfl
    (fun _ => rfl) (fun _ => rfl) (fun _ => rfl) (fun _ => rfl) (fun _ => rfl) cmd

/-! ### The rows of the opaque tags (R73) -/

/-- A command byte that none of the eight exact rows takes is tested against the masks of the opaque rows. -/
theorem instrOfCommand_of_not_exact {cmd : Byte} (f : Frame) (h : cmd ∉ [0x00, 0x01, 0x02, 0x03, 0x04, 0x05, 0x06, 0x07]) :
    instrOfCommand cmd f =
      if cmd &&& 0xF8 = 0x08 then .cmdOpaque08 (cmd.extractLsb' 0 3) f
      else if cmd &&& 0xF0 = 0x10 then .cmdOpaque10 (cmd.extractLsb' 0 4) f
      else if cmd &&& 0xE0 = 0x20 then .cmdOpaque20 (cmd.extractLsb' 0 5) f
      else if cmd &&& 0xC0 = 0x40 then .cmdOpaque40 (cmd.extractLsb' 0 6) f
      else .cmdOpaque80 (cmd.extractLsb' 0 7) f := by
  simp only [List.mem_cons, List.not_mem_nil, or_false, not_or] at h
  obtain ⟨h0, h1, h2, h3, h4, h5, h6, h7⟩ := h
  rw [instrOfCommand, if_neg h0, if_neg h1, if_neg h2, if_neg h3, if_neg h4, if_neg h5, if_neg h6, if_neg h7]

/-- A command byte with the tag bits of an opaque row is taken by that row, its low bits kept (R73). -/
theorem instrOfCommand_opaque08 (low : BitVec 3) (f : Frame) :
    instrOfCommand (opaqueCommand 0x08 low) f = .cmdOpaque08 low f := by
  have hbits : ∀ low : BitVec 3, opaqueCommand 0x08 low ∉ [0x00, 0x01, 0x02, 0x03, 0x04, 0x05, 0x06, 0x07]
      ∧ opaqueCommand 0x08 low &&& 0xF8 = 0x08 ∧ (opaqueCommand 0x08 low).extractLsb' 0 3 = low := by decide +kernel
  obtain ⟨hexact, h08, hlow⟩ := hbits low
  rw [instrOfCommand_of_not_exact f hexact, if_pos h08, hlow]

@[inherit_doc instrOfCommand_opaque08]
theorem instrOfCommand_opaque10 (low : BitVec 4) (f : Frame) :
    instrOfCommand (opaqueCommand 0x10 low) f = .cmdOpaque10 low f := by
  have hbits : ∀ low : BitVec 4, opaqueCommand 0x10 low ∉ [0x00, 0x01, 0x02, 0x03, 0x04, 0x05, 0x06, 0x07]
      ∧ opaqueCommand 0x10 low &&& 0xF8 ≠ 0x08 ∧ opaqueCommand 0x10 low &&& 0xF0 = 0x10
      ∧ (opaqueCommand 0x10 low).extractLsb' 0 4 = low := by decide +kernel
  obtain ⟨hexact, h08, h10, hlow⟩ := hbits low
  rw [instrOfCommand_of_not_exact f hexact, if_neg h08, if_pos h10, hlow]

@[inherit_doc instrOfCommand_opaque08]
theorem instrOfCommand_opaque20 (low : BitVec 5) (f : Frame) :
    instrOfCommand (opaqueCommand 0x20 low) f = .cmdOpaque20 low f := by
  have hbits : ∀ low : BitVec 5, opaqueCommand 0x20 low ∉ [0x00, 0x01, 0x02, 0x03, 0x04, 0x05, 0x06, 0x07]
      ∧ opaqueCommand 0x20 low &&& 0xF8 ≠ 0x08 ∧ opaqueCommand 0x20 low &&& 0xF0 ≠ 0x10
      ∧ opaqueCommand 0x20 low &&& 0xE0 = 0x20 ∧ (opaqueCommand 0x20 low).extractLsb' 0 5 = low := by decide +kernel
  obtain ⟨hexact, h08, h10, h20, hlow⟩ := hbits low
  rw [instrOfCommand_of_not_exact f hexact, if_neg h08, if_neg h10, if_pos h20, hlow]

@[inherit_doc instrOfCommand_opaque08]
theorem instrOfCommand_opaque40 (low : BitVec 6) (f : Frame) :
    instrOfCommand (opaqueCommand 0x40 low) f = .cmdOpaque40 low f := by
  have hbits : ∀ low : BitVec 6, opaqueCommand 0x40 low ∉ [0x00, 0x01, 0x02, 0x03, 0x04, 0x05, 0x06, 0x07]
      ∧ opaqueCommand 0x40 low &&& 0xF8 ≠ 0x08 ∧ opaqueCommand 0x40 low &&& 0xF0 ≠ 0x10
      ∧ opaqueCommand 0x40 low &&& 0xE0 ≠ 0x20 ∧ opaqueCommand 0x40 low &&& 0xC0 = 0x40
      ∧ (opaqueCommand 0x40 low).extractLsb' 0 6 = low := by decide +kernel
  obtain ⟨hexact, h08, h10, h20, h40, hlow⟩ := hbits low
  rw [instrOfCommand_of_not_exact f hexact, if_neg h08, if_neg h10, if_neg h20, if_pos h40, hlow]

@[inherit_doc instrOfCommand_opaque08]
theorem instrOfCommand_opaque80 (low : BitVec 7) (f : Frame) :
    instrOfCommand (opaqueCommand 0x80 low) f = .cmdOpaque80 low f := by
  have hbits : ∀ low : BitVec 7, opaqueCommand 0x80 low ∉ [0x00, 0x01, 0x02, 0x03, 0x04, 0x05, 0x06, 0x07]
      ∧ opaqueCommand 0x80 low &&& 0xF8 ≠ 0x08 ∧ opaqueCommand 0x80 low &&& 0xF0 ≠ 0x10
      ∧ opaqueCommand 0x80 low &&& 0xE0 ≠ 0x20 ∧ opaqueCommand 0x80 low &&& 0xC0 ≠ 0x40
      ∧ (opaqueCommand 0x80 low).extractLsb' 0 7 = low := by decide +kernel
  obtain ⟨hexact, h08, h10, h20, h40, hlow⟩ := hbits low
  rw [instrOfCommand_of_not_exact f hexact, if_neg h08, if_neg h10, if_neg h20, if_neg h40, hlow]

/-! ### Selectors (R82, R83, R85) -/

/-- The sixteen builder selectors. -/
theorem builderSelector_cases (sel : BitVec 4) :
    sel = 0 ∨ sel = 1 ∨ sel = 2 ∨ sel = 3 ∨ sel = 4 ∨ sel = 5 ∨ sel = 6 ∨ sel = 7 ∨ sel = 8 ∨ sel = 9 ∨ sel = 10 ∨ sel = 11
      ∨ sel = 12 ∨ sel = 13 ∨ sel = 14 ∨ sel = 15 := by
  revert sel; decide

/-- The row of a builder selector encodes as that selector. -/
@[simp] theorem encode_instrOfSelector (sel : BitVec 4) (a : BuildArgs) : encode (instrOfSelector sel a) = .builder sel a := by
  rcases builderSelector_cases sel with
    rfl | rfl | rfl | rfl | rfl | rfl | rfl | rfl | rfl | rfl | rfl | rfl | rfl | rfl | rfl | rfl <;> rfl

/-- The four selectors `11xx` are the unused row, their low bits kept (R85). -/
theorem instrOfSelector_unused (low : BitVec 2) (a : BuildArgs) :
    instrOfSelector (0b11#2 ++ low) a = .selUnused low a := by
  have hlow : ∀ low : BitVec 2, low = 0 ∨ low = 1 ∨ low = 2 ∨ low = 3 := by decide
  rcases hlow low with rfl | rfl | rfl | rfl <;> rfl

/-- The row of a parser code encodes as that code. -/
@[simp] theorem encode_instrOfParser (enc : BitVec 3) (p : List Byte) : encode (instrOfParser enc p) = .parser enc p := by
  have henc : ∀ enc : BitVec 3,
      enc = 0 ∨ enc = 1 ∨ enc = 2 ∨ enc = 3 ∨ enc = 4 ∨ enc = 5 ∨ enc = 6 ∨ enc = 7 := by decide
  rcases henc enc with rfl | rfl | rfl | rfl | rfl | rfl | rfl | rfl <;> rfl

/-- A request that decodes encodes as the same selector, clock value and operand (R83, R84). -/
theorem encode_of_decodeRequest {op : BitVec 2} {now : Nat} {operand : Operand} {i : Instr}
    (h : decodeRequest op now operand = .ok i) : encode i = .req op now operand := by
  have hop (k : BitVec 2) (hk : op.toNat = k.toNat) : k = op := (BitVec.eq_of_toNat_eq hk).symm
  unfold decodeRequest at h
  split at h
  case h_1 hk => injection h with h; rw [← h, ← hop 0 hk]; rfl
  case h_2 hk => injection h with h; rw [← h, ← hop 1 hk]; rfl
  case h_3 hk => injection h with h; rw [← h, ← hop 2 hk]; rfl
  case h_4 hk => injection h with h; rw [← h, ← hop 3 hk]; rfl
  case h_5 => cases h

/-! ### Round trips (30_encoding.md sections 1 to 4) -/

/-- A valid frame decodes to the instruction that is the row of its command byte. -/
theorem decode_frame_of_row {cmd : Byte} {f : Frame} {i : Instr} (hrow : instrOfCommand cmd f = i) (h : f.wf cmd = true) :
    decode (.frame (encodeFrame cmd f)) = .ok i :=
  hrow ▸ decodeFrame_encodeFrame h

/-- Settles O6: a frame row decodes by `decodeFrame_encodeFrame`, every other row from its own selector. -/
theorem decodeOfEncodeIsTheInstruction : Obligations.DecodeOfEncodeIsTheInstruction := by
  intro i hwf
  cases i with
  | cmdNone f | cmdOpaque01 f | cmdInf f | cmdSet f | cmdAck f | cmdNack f | cmdGet f | cmdRet f =>
    exact decodeFrame_encodeFrame hwf
  | cmdOpaque08 low f => exact decode_frame_of_row (instrOfCommand_opaque08 low f) hwf
  | cmdOpaque10 low f => exact decode_frame_of_row (instrOfCommand_opaque10 low f) hwf
  | cmdOpaque20 low f => exact decode_frame_of_row (instrOfCommand_opaque20 low f) hwf
  | cmdOpaque40 low f => exact decode_frame_of_row (instrOfCommand_opaque40 low f) hwf
  | cmdOpaque80 low f => exact decode_frame_of_row (instrOfCommand_opaque80 low f) hwf
  | selUnused low a => exact congrArg Except.ok (instrOfSelector_unused low a)
  | _ => rfl

/-- Settles O7: what the decoder reads in each format, the encoder writes back. -/
theorem encodeOfDecodeIsTheEncodedForm : Obligations.EncodeOfDecodeIsTheEncodedForm := by
  intro c i h
  cases c with
  | req op now operand => exact encode_of_decodeRequest h
  | frame bytes =>
    obtain ⟨cmd, f, -, rfl, rfl⟩ := decodeFrame_eq_ok h
    exact encode_instrOfCommand cmd f
  | builder sel a =>
    injection h with h
    rw [← h, encode_instrOfSelector]
  | parser enc p =>
    injection h with h
    rw [← h, encode_instrOfParser]
  | builderGet e src dst field | crc16 bytes | serialize p =>
    injection h with h
    rw [← h]
    rfl

/-- Settles O8: a frame that decodes is the encoding of a valid one, whose length byte counts it and whose CRC closes it. -/
theorem decodedFramesAreValid : Obligations.DecodedFramesAreValid := by
  intro bytes i h
  obtain ⟨cmd, f, hwf, rfl, rfl⟩ := decodeFrame_eq_ok h
  obtain ⟨hlen, hcrc⟩ := (frame_wf_iff cmd f).mp hwf
  have hlt := f.len.isLt
  have hbyte : f.len = BitVec.ofNat 8 (11 + f.payload.length) := by rw [← hlen, BitVec.ofNat_toNat, BitVec.setWidth_eq]
  rw [length_encodeFrame]
  refine ⟨by rw [wf_instrOfCommand, hwf], by omega, by omega, ?_, ?_⟩
  · rw [encodeFrame_eq, ← hbyte]; rfl
  · rw [encodeFrame, hcrc, crc16_append_bytes16_crc16]

/-- Settles O5. -/
theorem sampleWordsDecodeToTheirRows : Obligations.SampleWordsDecodeToTheirRows := by
  refine ⟨rfl, rfl, rfl, rfl, fun _ => rfl, fun _ => rfl, fun _ => rfl, fun _ => rfl, ?_, ?_⟩ <;> decide +kernel

end Sys2Proof.Machine

/-! The opcode table as a partition of the encoded forms (30_encoding.md, introduction), and the serializer
(41_packet_model.md R111): its bytes in numbers, its CRC, and the frame its packet arrives as. -/

namespace Sys2Proof.Machine

/-! ### The opcode table -/

/-- The encoded form of every instruction fits its row. -/
theorem row_fits_encode (i : Instr) : i.row.fits (encode i) = true := by
  cases i with
  | cmdNone f | cmdOpaque01 f | cmdInf f | cmdSet f | cmdAck f | cmdNack f | cmdGet f | cmdRet f =>
    exact Laws.EncodesItsRow.of_command _ f
  | cmdOpaque08 low f => exact Laws.EncodesItsRow.cmdOpaque08 low f
  | cmdOpaque10 low f => exact Laws.EncodesItsRow.cmdOpaque10 low f
  | cmdOpaque20 low f => exact Laws.EncodesItsRow.cmdOpaque20 low f
  | cmdOpaque40 low f => exact Laws.EncodesItsRow.cmdOpaque40 low f
  | cmdOpaque80 low f => exact Laws.EncodesItsRow.cmdOpaque80 low f
  | selUnused low a => exact Laws.EncodesItsRow.selUnused low a
  | _ => simp [Row.fits, Instr.row, encode, Code.format, Code.selector]

/-- Of an encoded form a row sees the format and the selector bits only. -/
theorem Row.fits_congr (r : Row) {c d : Code} (hformat : c.format = d.format) (hsel : c.selector = d.selector) :
    r.fits c = r.fits d := by
  rw [Row.fits, Row.fits, hformat, hsel]

/-- An instruction whose encoding has the format and the selector bits of a form has a row that the form fits. -/
theorem row_fits_of_encode (i : Instr) {c : Code} (hformat : (encode i).format = c.format)
    (hsel : (encode i).selector = c.selector) : i.row.fits c = true :=
  Row.fits_congr i.row hformat hsel ▸ row_fits_encode i

/-- Some instruction is encoded with a given request selector: each of the four has its row (R83). -/
theorem exists_encode_request (op : BitVec 2) : ∃ i now operand, encode i = .req op now operand := by
  have hop : ∀ op : BitVec 2, op = 0 ∨ op = 1 ∨ op = 2 ∨ op = 3 := by decide
  rcases hop op with rfl | rfl | rfl | rfl
  · exact ⟨.feed 0 0, 0, .raw 0, rfl⟩
  · exact ⟨.tick 0, 0, .none, rfl⟩
  · exact ⟨.write 0 0 0, 0, .target 0 0, rfl⟩
  · exact ⟨.reservedOp 0 .none, 0, .none, rfl⟩

/-- Every encoded form fits some row. -/
theorem exists_row_fits (c : Code) : ∃ i : Instr, i.row.fits c = true := by
  cases c with
  | req op now operand =>
    obtain ⟨i, now', operand', h⟩ := exists_encode_request op
    exact ⟨i, row_fits_of_encode i (by rw [h]; rfl) (by rw [h]; rfl)⟩
  | frame bytes =>
    exact ⟨instrOfCommand (bytes.getD 4 0) ⟨0, 0, 0, 0, [], 0⟩,
      row_fits_of_encode _ (by rw [encode_instrOfCommand]; rfl) (by rw [encode_instrOfCommand]; rfl)⟩
  | builder sel a =>
    exact ⟨instrOfSelector sel a, row_fits_of_encode _ (by rw [encode_instrOfSelector]) (by rw [encode_instrOfSelector])⟩
  | parser enc p =>
    exact ⟨instrOfParser enc p, row_fits_of_encode _ (by rw [encode_instrOfParser]) (by rw [encode_instrOfParser])⟩
  | builderGet e src dst field => exact ⟨.buildGet e src dst field, row_fits_encode (.buildGet e src dst field)⟩
  | crc16 bytes => exact ⟨.crc16 bytes, row_fits_encode (.crc16 bytes)⟩
  | serialize p => exact ⟨.serialize p, row_fits_encode (.serialize p)⟩

/-- The opcode table: the rows of the instructions. -/
def opcodeTable : List Row :=
  [⟨.command, 0xFF, 0x00⟩, ⟨.command, 0xFF, 0x01⟩, ⟨.command, 0xFF, 0x02⟩, ⟨.command, 0xFF, 0x03⟩, ⟨.command, 0xFF, 0x04⟩,
    ⟨.command, 0xFF, 0x05⟩, ⟨.command, 0xFF, 0x06⟩, ⟨.command, 0xFF, 0x07⟩, ⟨.command, 0xF8, 0x08⟩, ⟨.command, 0xF0, 0x10⟩,
    ⟨.command, 0xE0, 0x20⟩, ⟨.command, 0xC0, 0x40⟩, ⟨.command, 0x80, 0x80⟩, ⟨.request, 3, 0⟩, ⟨.request, 3, 1⟩,
    ⟨.request, 3, 2⟩, ⟨.request, 3, 3⟩, ⟨.builderSel, 15, 0⟩, ⟨.builderSel, 15, 1⟩, ⟨.builderSel, 15, 2⟩,
    ⟨.builderSel, 15, 3⟩, ⟨.builderSel, 15, 4⟩, ⟨.builderSel, 15, 5⟩, ⟨.builderSel, 15, 6⟩, ⟨.builderSel, 15, 7⟩,
    ⟨.builderSel, 15, 8⟩, ⟨.builderSel, 15, 9⟩, ⟨.builderSel, 15, 10⟩, ⟨.builderSel, 15, 11⟩, ⟨.builderSel, 12, 12⟩,
    ⟨.builderGet, 0, 0⟩, ⟨.parserEnc, 7, 0⟩, ⟨.parserEnc, 7, 1⟩, ⟨.parserEnc, 7, 2⟩, ⟨.parserEnc, 7, 3⟩,
    ⟨.parserEnc, 7, 4⟩, ⟨.parserEnc, 7, 5⟩, ⟨.parserEnc, 7, 6⟩, ⟨.parserEnc, 7, 7⟩, ⟨.crcFunction, 0, 0⟩,
    ⟨.serializeFunction, 0, 0⟩]

/-- The table holds the row of every instruction. -/
theorem row_mem_opcodeTable (i : Instr) : i.row ∈ opcodeTable := by
  cases i <;> simp [Instr.row, opcodeTable]

/-- Two rows of the table are one row, or they share no encoded form. -/
theorem eq_or_disjoint_of_mem_opcodeTable : ∀ r ∈ opcodeTable, ∀ t ∈ opcodeTable, r = t ∨ r.disjoint t = true := by
  decide +kernel

/-- A form that fits two rows shows that they are not disjoint: both patterns are its own bits. -/
theorem Row.disjoint_eq_false_of_fits {r t : Row} {c : Code} (hr : r.fits c = true) (ht : t.fits c = true) :
    r.disjoint t = false := by
  simp only [Row.fits, Bool.and_eq_true, beq_iff_eq] at hr ht
  obtain ⟨hrf, hrp⟩ := hr
  obtain ⟨htf, htp⟩ := ht
  have hbits : r.pattern &&& t.mask &&& r.mask = t.pattern &&& r.mask &&& t.mask := by
    rw [← hrp, ← htp]
    ext i hi
    simp only [BitVec.getElem_and]
    cases r.mask[i] <;> cases t.mask[i] <;> simp
  simp [Row.disjoint, ← hrf, ← htf, hbits]

/-- Settles O9: `exists_row_fits` covers every form, and the table's rows are pairwise disjoint. -/
theorem tableRowsCoverEveryCodeOnce : Obligations.TableRowsCoverEveryCodeOnce := by
  refine fun c => ⟨exists_row_fits c, fun i j hi hj => ?_⟩
  rcases eq_or_disjoint_of_mem_opcodeTable _ (row_mem_opcodeTable i) _ (row_mem_opcodeTable j) with heq | hdisjoint
  · exact heq
  · simp [Row.disjoint_eq_false_of_fits hi hj] at hdisjoint

/-! ### The serializer (41_packet_model.md R111) -/

/-- SERIALIZE leaves the frame and the filled packet on the answer port, whatever the state (R111, logs 5 and 21). -/
@[simp] theorem exec_serialize (p : Packet) (s : State) :
    exec (.serialize p) s = .next (s.answer (.frame (fillPacket p) (serializeBytes p))) := rfl

/-- Settles O12: `serializeBytes_eq_sent` and `fillPacket_eq_built` read the serializer in numbers. -/
theorem serializeReturnsTheFrame : Obligations.SerializeReturnsTheFrame := by
  intro p s hp
  rw [exec_serialize, serializeBytes_eq_sent p hp, fillPacket_eq_built p hp, State.answer]

/-- A serialized frame has CRC zero (R103). -/
theorem crc16_serializeBytes (p : Packet) : crc16 (serializeBytes p) = 0 :=
  crc16_append_bytes16_crc16 (packetBody p)

/-- Settles O13: the serialization is the header, the payload and the CRC, whatever the length byte. -/
theorem serializeCompletesOnEveryPacket : Obligations.SerializeCompletesOnEveryPacket := by
  intro p s
  refine ⟨fillPacket p,
    [startByte, sourceByte p.src, p.dst, lengthByte p.payload.length, p.cmd] ++ fieldBytes p.cmd p.field,
    (crc16 (packetBody p)).extractLsb' 8 8, (crc16 (packetBody p)).extractLsb' 0 8, rfl, exec_serialize p s, ?_⟩
  exact crc16_serializeBytes p

/-- Within R111's operands the length byte counts the frame (R112). -/
theorem lengthByte_of_le {n : Nat} (h : n ≤ 244) : lengthByte n = BitVec.ofNat 8 (11 + n) := by
  rw [lengthByte, minFrameLen, if_pos (by omega)]

/-- The masks of a field id's outer and middle bytes, bit by bit, each read where the exchange puts it. -/
theorem getLsbD_field_masks : ∀ i : Fin 32,
    (0xFF0000FF#32).getLsbD i = decide (i.val < 8 ∨ 24 ≤ i.val)
      ∧ (0x00FF0000#32).getLsbD (8 + i) = decide (8 ≤ i.val ∧ i.val < 16)
      ∧ (8 ≤ i.val → (0x0000FF00#32).getLsbD (i - 8) = decide (16 ≤ i.val ∧ i.val < 24)) := by
  decide +kernel

/-- Exchanging the middle bytes, by masks and shifts. -/
theorem swapMiddle_eq_masks (f : FieldId) :
    swapMiddle f = (f &&& 0xFF0000FF) ||| ((f &&& 0x00FF0000) >>> 8) ||| ((f &&& 0x0000FF00) <<< 8) := by
  apply BitVec.eq_of_getLsbD_eq
  intro i hi
  obtain ⟨houter, hhigh, hlow⟩ := getLsbD_field_masks ⟨i, hi⟩
  simp only [swapMiddle, BitVec.getLsbD_or, BitVec.getLsbD_and, BitVec.getLsbD_shiftLeft, BitVec.getLsbD_ushiftRight]
  grind

/-- The field id whose bytes, in arrival order, a sender puts on the wire is the arrived one (R74 to R76). -/
theorem fieldBytes_eq_bytes32_arrivedField (cmd : Byte) (f : FieldId) :
    fieldBytes cmd f = bytes32 (arrivedField cmd f) := by
  have hcmd : swapsField cmd = true ↔ cmd = 0x02 ∨ cmd = 0x03 ∨ cmd = 0x06 := by
    simp [swapsField, cmdInfo, cmdSetCode, cmdGetCode, or_assoc]
  simp only [fieldBytes, arrivedField, hcmd, swapMiddle_eq_masks]

/-- The frame a serialized packet arrives as (R76, R263). -/
def arrivedFrame (p : Packet) : Frame :=
  { src := p.src, dst := p.dst, len := BitVec.ofNat 8 (11 + p.payload.length), field := arrivedField p.cmd p.field,
    payload := p.payload, crc := crc16 (packetBody p) }

/-- The CRC that arrives is the sender's. -/
theorem crc_arrivedFrame (p : Packet) : (arrivedFrame p).crc = crc16 (packetBody p) := by
  rw [arrivedFrame]

/-- The body of a packet is that of the frame it arrives as. -/
theorem packetBody_eq_receivedBody {p : Packet} (h : p.payload.length ≤ 244) :
    packetBody p = receivedBody p.cmd (arrivedFrame p) := by
  rw [packetBody, lengthByte_of_le h, fieldBytes_eq_bytes32_arrivedField]
  rfl

/-- A packet arrives as a valid frame. -/
theorem wf_arrivedFrame {p : Packet} (h : p.payload.length ≤ 244) : (arrivedFrame p).wf p.cmd = true := by
  rw [frame_wf_iff, ← packetBody_eq_receivedBody h]
  refine ⟨?_, crc_arrivedFrame p⟩
  simp only [arrivedFrame, BitVec.toNat_ofNat]
  omega

/-- A packet's serialization is the encoding of the frame it arrives as. -/
theorem serializeBytes_eq_encodeFrame {p : Packet} (h : p.payload.length ≤ 244) :
    serializeBytes p = encodeFrame p.cmd (arrivedFrame p) := by
  rw [serializeBytes, encodeFrame, ← packetBody_eq_receivedBody h, crc_arrivedFrame]

/-- Settles O14: the serialization is the encoding of a valid frame, and that decodes. -/
theorem serializedPacketDecodesWithArrivedField : Obligations.SerializedPacketDecodesWithArrivedField := by
  intro p h
  refine ⟨crc16 (packetBody p), ?_⟩
  rw [serializeBytes_eq_encodeFrame h]
  exact decodeFrame_encodeFrame (wf_arrivedFrame h)

end Sys2Proof.Machine

/-! The receiver over many bytes (43_receiver.md): every step keeps its invariant (R168), a frame attempt lasts as long as its
length byte says (R169), and a valid frame fed whole does what the row of its command byte does (R86). -/

namespace Sys2Proof.Machine

/-! ### The last byte of a frame (R162 to R166) -/

/-- Settles O28. -/
theorem feedStoresDestinationAndLength : Obligations.FeedStoresDestinationAndLength := by
  intro s now b h
  constructor
  · intro hs
    rw [exec_feed_of_ne_crc1 b h (by simp [hs])]
    simp only [Receiver.advance, hs]
    rfl
  · intro hs
    rw [exec_feed_of_ne_crc1 b h (by simp [hs])]
    simp only [Receiver.advance, hs]
    rfl

/-- In `Crc1` the byte completes the CRC register, and the receiver is back in `Start` with an empty buffer (R162). -/
theorem Receiver.advance_of_crc1 {r : Receiver} (b : Byte) (h : r.state = .crc1) :
    r.advance b = { r with buf := [], crc := r.crc ||| b.zeroExtend 16, state := .start } := by
  simp only [Receiver.advance, h]
  rfl

/-- Settles O33: an invalid frame is not delivered, so the receiver step writes the registers only. -/
theorem feedDiscardsAnInvalidFrame : Obligations.FeedDiscardsAnInvalidFrame := by
  intro s now b h hs hinvalid
  have hvalid : ¬ (s.rx.onCrc1 b).valid = true := by
    rw [valid_onCrc1_iff]
    rintro ⟨hcrc, hlen⟩
    rcases hinvalid with hne | hshort
    · exact hne hcrc
    · omega
  rw [exec_feed_accepted b h, State.rxStep_eq, if_neg (fun hc => hvalid hc.2), State.setLastNow_rx,
    Receiver.advance_of_crc1 b hs]
  rfl

/-- Settles O34: a valid frame is delivered on the registers the row's frame is read from, at the clock value just written. -/
theorem feedRunsTheCommandOfAValidFrame : Obligations.FeedRunsTheCommandOfAValidFrame := by
  intro s now b h hs hcrc hlen
  have hvalid : (s.rx.onCrc1 b).valid = true := (valid_onCrc1_iff s.rx b).mpr ⟨hcrc, hlen⟩
  rw [exec_feed_accepted b h, State.rxStep_eq, if_pos ⟨hs, hvalid⟩, exec_instrOfCommand, ← State.deliver_setRx,
    State.setLastNow_rx, Receiver.advance_of_crc1 b hs]
  exact (deliverFrame_of_fault_none _ _ (by exact h.1)).symm

/-! ### The invariant (R168) -/

/-- A byte pushed into the field register: the oldest byte leaves, the new one stands last (R76, R156). -/
theorem bytes32_fieldPush (f : FieldId) (b : Byte) : bytes32 (fieldPush f b) = (bytes32 f).drop 1 ++ [b] := by
  have hf := f.isLt
  have hb := b.isLt
  simp only [bytes32, List.drop_succ_cons, List.drop_zero, List.cons_append, List.nil_append, List.cons.injEq, and_true]
  refine ⟨?_, ?_, ?_, ?_⟩ <;> apply BitVec.eq_of_toNat_eq <;>
    simp only [fieldPush_eq_add, BitVec.extractLsb'_toNat, BitVec.toNat_ofNat, Nat.shiftRight_eq_div_pow] <;> omega

/-- A field byte taken into the buffer and the field register leaves the buffer the header and the field bytes so far. -/
theorem Receiver.buf_onField {r : Receiver} {k : Nat} (b : Byte) (next : RxState) (hk : k ≤ 3)
    (h : r.buf = r.header ++ (bytes32 r.field).drop (k + 1)) :
    (r.onField b next).buf = (r.onField b next).header ++ (bytes32 (r.onField b next).field).drop k := by
  have hpush : (bytes32 (fieldPush r.field b)).drop k = (bytes32 r.field).drop (k + 1) ++ [b] := by
    rw [bytes32_fieldPush, List.drop_append_of_le_length (by simpa [bytes32] using hk), List.drop_drop, Nat.add_comm]
  calc (r.onField b next).buf = r.buf ++ [b] := rfl
    _ = r.header ++ (bytes32 (fieldPush r.field b)).drop k := by rw [h, hpush, List.append_assoc]

/-- A field register with room at the top grows by one byte (R156). -/
theorem fieldPush_toNat_lt {f : FieldId} (b : Byte) {k : Nat} (h : f.toNat < 2 ^ k) :
    (fieldPush f b).toNat < 2 ^ (k + 8) := by
  have hb := b.isLt
  rw [fieldPush_eq_add, BitVec.toNat_ofNat]
  refine (Nat.mod_le _ _).trans_lt ?_
  rw [pow_add]
  omega

/-- The header and the field id are nine bytes (R70). -/
@[simp] theorem Receiver.length_header_append_bytes32 (r : Receiver) (f : FieldId) :
    (r.header ++ bytes32 f).length = 9 := rfl

/-- A buffer that begins with the header and the field id holds at least nine bytes. -/
theorem Receiver.nine_le_length {r : Receiver} (h : r.buf.take 9 = r.header ++ bytes32 r.field) : 9 ≤ r.buf.length := by
  have hlen := congrArg List.length h
  rw [length_header_append_bytes32, List.length_take] at hlen
  omega

/-- A byte behind the ninth leaves the first nine. -/
theorem Receiver.take_nine_append {r : Receiver} (b : Byte) (h : r.buf.take 9 = r.header ++ bytes32 r.field) :
    (r.buf ++ [b]).take 9 = r.header ++ bytes32 r.field :=
  (List.take_append_of_le_length (Receiver.nine_le_length h)).trans h

/-- Every receiver step keeps the invariant (R168). -/
theorem Receiver.Inv.advance {r : Receiver} (h : r.Inv) (b : Byte) : (r.advance b).Inv := by
  have hlength : (r.buf ++ [b]).length = r.buf.length + 1 := List.length_append
  cases hs : r.state <;> simp only [Receiver.Inv, hs] at h <;> simp only [Receiver.advance, hs]
  case start =>
    unfold Receiver.onStart
    split
    case isTrue hb => subst hb; rfl
    case isFalse => rfl
  case sourceAddr =>
    unfold Receiver.onSourceAddr
    split
    case isTrue => rfl
    case isFalse hb => simp [Receiver.take, Receiver.Inv, Receiver.header, sourceByte_extractLsb hb, h]
  case destAddr => exact congrArg (· ++ [b]) h
  case length => exact congrArg (· ++ [b]) h
  case command => exact ⟨congrArg (· ++ [b]) h, rfl⟩
  case field0 =>
    obtain ⟨hbuf, hfield⟩ := h
    have hlt : r.field.toNat < 2 ^ 0 := by rw [hfield]; decide
    exact ⟨Receiver.buf_onField b .field1 (by omega) (hbuf.trans (List.append_nil _).symm), fieldPush_toNat_lt b hlt⟩
  case field1 =>
    obtain ⟨hbuf, hlt⟩ := h
    exact ⟨Receiver.buf_onField b .field2 (by omega) hbuf, fieldPush_toNat_lt b hlt⟩
  case field2 =>
    obtain ⟨hbuf, hlt⟩ := h
    exact ⟨Receiver.buf_onField b .field3 (by omega) hbuf, fieldPush_toNat_lt b hlt⟩
  case field3 =>
    obtain ⟨hbuf, -⟩ := h
    have hnine (next : RxState) : (r.onField b next).buf = (r.onField b next).header ++ bytes32 (r.onField b next).field :=
      Receiver.buf_onField b next (Nat.zero_le 3) hbuf
    have hnineBytes (next : RxState) : (r.onField b next).buf.length = 9 := by
      rw [hnine, Receiver.length_header_append_bytes32]
    have htake (next : RxState) : (r.onField b next).buf.take 9 = _ :=
      (List.take_of_length_le (hnineBytes next).le).trans (hnine next)
    unfold Receiver.onField3
    split
    case isTrue hlen => exact ⟨htake .payload, by rw [hnineBytes]; exact hlen⟩
    case isFalse hlen => exact ⟨htake .crc0, by rw [hnineBytes]; exact (max_eq_left (Nat.not_lt.mp hlen)).symm⟩
  case payload =>
    obtain ⟨hnine, hlen⟩ := h
    have hle := Receiver.nine_le_length hnine
    unfold Receiver.onPayload
    split
    case isTrue hend =>
      refine ⟨Receiver.take_nine_append b hnine, ?_⟩
      change (r.buf ++ [b]).length + 2 = max 11 r.len.toNat
      rw [hlength]
      omega
    case isFalse hend =>
      refine ⟨Receiver.take_nine_append b hnine, ?_⟩
      change (r.buf ++ [b]).length + 2 < r.len.toNat
      rw [hlength]
      omega
  case crc0 =>
    obtain ⟨hnine, hlen⟩ := h
    refine ⟨Receiver.take_nine_append b hnine, ?_, ?_⟩
    · change (r.buf ++ [b]).length + 1 = max 11 r.len.toNat
      rw [hlength]
      omega
    · change (b.zeroExtend 16 <<< 8 : Crc) = ((r.buf ++ [b]).getLastD 0).zeroExtend 16 <<< 8
      rw [List.getLastD_concat]
  case crc1 => rfl

/-! ### The length of a frame attempt (R169) -/

/-- The states in which the length byte has been taken. -/
def RxState.pastLength (st : RxState) : Bool :=
  decide (st ∉ [.start, .sourceAddr, .destAddr, .length])

/-- The register block `r'` is `r` with the byte `b` taken into its buffer, in a state past the length byte. -/
def Receiver.Took (r : Receiver) (b : Byte) (r' : Receiver) : Prop :=
  r'.buf = r.buf ++ [b] ∧ r'.len = r.len ∧ r'.state.pastLength = true

/-- Past the length byte every step outside `Crc1` takes its byte (R155 to R161). -/
theorem Receiver.advance_took {r : Receiver} (hs : r.state.pastLength = true) (hne : r.state ≠ .crc1) (b : Byte) :
    r.Took b (r.advance b) := by
  cases hst : r.state <;> simp only [Receiver.advance, hst]
  case start | sourceAddr | destAddr | length => simp [hst, RxState.pastLength] at hs
  case command | field0 | field1 | field2 | crc0 => exact ⟨rfl, rfl, rfl⟩
  case field3 =>
    refine ⟨rfl, rfl, ?_⟩
    change (if minFrameLen < r.len.toNat then RxState.payload else .crc0).pastLength = true
    split <;> rfl
  case payload =>
    refine ⟨rfl, rfl, ?_⟩
    change (if r.buf.length + 1 + 2 = r.len.toNat then RxState.crc0 else .payload).pastLength = true
    split <;> rfl
  case crc1 => exact absurd hst hne

/-- Past the length byte the buffer holds all bytes of the attempt but the last exactly in `Crc1`, and fewer before (R168). -/
theorem Receiver.Inv.length_of_pastLength {r : Receiver} (h : r.Inv) (hs : r.state.pastLength = true) :
    (r.state = .crc1 ∧ r.buf.length + 1 = max 11 r.len.toNat)
      ∨ (r.state ≠ .crc1 ∧ r.buf.length + 1 < max 11 r.len.toNat) := by
  cases hst : r.state <;> simp only [Receiver.Inv, hst] at h
  case start | sourceAddr | destAddr | length => simp [hst, RxState.pastLength] at hs
  case command =>
    have hlength : r.buf.length = 4 := congrArg List.length h
    exact .inr ⟨by simp, by omega⟩
  case field0 =>
    have hlength : r.buf.length = 5 := congrArg List.length h.1
    exact .inr ⟨by simp, by omega⟩
  case field1 =>
    have hlength : r.buf.length = 6 := congrArg List.length h.1
    exact .inr ⟨by simp, by omega⟩
  case field2 =>
    have hlength : r.buf.length = 7 := congrArg List.length h.1
    exact .inr ⟨by simp, by omega⟩
  case field3 =>
    have hlength : r.buf.length = 8 := congrArg List.length h.1
    exact .inr ⟨by simp, by omega⟩
  case payload | crc0 => exact .inr ⟨by simp, by omega⟩
  case crc1 => exact .inl ⟨rfl, h.2.1⟩

/-! ### Runs of FEED -/

/-- An accepted FEED keeps requests at its clock value accepted. -/
theorem State.Accepts.rxStep {s : State} {now : Nat} (h : s.Accepts now) (b : Byte) :
    ((s.setLastNow now).rxStep b now).Accepts now := by
  simp [State.Accepts, h.1]

/-- The first byte of a run is one receiver step. -/
theorem feedAll_cons {s : State} {now : Nat} (raw : Byte) (rest : List Byte) (h : s.Accepts now) :
    feedAll now (raw :: rest) s = feedAll now rest ((s.setLastNow now).rxStep (invertByte raw) now) := by
  have hexec : exec (.feed now raw) s = .next ((s.setLastNow now).rxStep (invertByte raw) now) :=
    execFeed_accepted raw h.1 h.2
  rw [feedAll, hexec]

/-- A run that does not go beyond the frame attempt completes, and is back in `Start` exactly when it has used the attempt up
(R169). -/
theorem feedAll_of_pastLength (now : Nat) (raws : List Byte) {s : State} (h : s.Accepts now) (hinv : s.rx.Inv)
    (hs : s.rx.state.pastLength = true) (hlen : s.rx.buf.length < max 11 s.rx.len.toNat)
    (hle : s.rx.buf.length + raws.length ≤ max 11 s.rx.len.toNat) :
    ∃ t, feedAll now raws s = .next t
      ∧ (t.rx.state = .start ↔ s.rx.buf.length + raws.length = max 11 s.rx.len.toNat) := by
  induction raws generalizing s with
  | nil =>
    have hne : s.rx.state ≠ .start := fun hc => by simp [hc, RxState.pastLength] at hs
    exact ⟨s, rfl, iff_of_false hne (by simpa using hlen.ne)⟩
  | cons raw rest ih =>
    rw [feedAll_cons raw rest h]
    have hrx : ((s.setLastNow now).rxStep (invertByte raw) now).rx = s.rx.advance (invertByte raw) := State.rxStep_rx _ _ _
    rw [List.length_cons] at hle ⊢
    rcases hinv.length_of_pastLength hs with ⟨hcrc1, hlast⟩ | ⟨hne, hlt⟩
    · obtain rfl : rest = [] := List.eq_nil_of_length_eq_zero (by omega)
      refine ⟨_, rfl, iff_of_true ?_ hlast⟩
      rw [hrx, Receiver.advance_of_crc1 _ hcrc1]
    · obtain ⟨htook, hkeep, hpast⟩ := Receiver.advance_took hs hne (invertByte raw)
      have hbuf : (s.rx.advance (invertByte raw)).buf.length = s.rx.buf.length + 1 := by rw [htook, List.length_append]; rfl
      obtain ⟨t, ht, hiff⟩ := ih (h.rxStep (invertByte raw)) (hrx ▸ hinv.advance _) (by rw [hrx, hpast])
        (by rw [hrx, hbuf, hkeep]; exact hlt) (by rw [hrx, hbuf, hkeep]; omega)
      refine ⟨t, ht, hiff.trans ?_⟩
      rw [hrx, hbuf, hkeep]
      omega

/-- Settles O36: `feedAll_of_pastLength` from the fourth byte on, for the whole attempt and for each shorter part of it. -/
theorem frameAttemptConsumesItsLength : Obligations.FrameAttemptConsumesItsLength := by
  intro s now raws h hinv hs hraws
  have hbuf : s.rx.buf.length = 4 := by
    simp only [Receiver.Inv, hs] at hinv
    exact congrArg List.length hinv
  have hpast : s.rx.state.pastLength = true := by rw [hs]; rfl
  constructor
  · obtain ⟨t, ht, hiff⟩ := feedAll_of_pastLength now raws h hinv hpast (by omega) (by omega)
    exact ⟨t, ht, hiff.mpr (by omega)⟩
  · intro k hk
    have hlen : (raws.take k).length = k := List.length_take_of_le hk.le
    obtain ⟨t, ht, hiff⟩ := feedAll_of_pastLength now (raws.take k) h hinv hpast (by omega) (by omega)
    exact ⟨t, ht, fun hc => absurd (hiff.mp hc) (by omega)⟩

/-! ### A whole frame (R86) -/

/-- The line bytes of logical bytes (R78). -/
abbrev onLine (bytes : List Byte) : List Byte := bytes.map fun b => b ^^^ 0xFF

/-- Outside `Crc1` the first line byte of a run advances the registers. -/
theorem feedAll_onLine_cons {s : State} {now : Nat} (b : Byte) (rest : List Byte) (h : s.Accepts now)
    (hs : s.rx.state ≠ .crc1) :
    feedAll now (onLine (b :: rest)) s = feedAll now (onLine rest) { s with lastNow := now, rx := s.rx.advance b } := by
  have hexec := exec_feed_of_ne_crc1 b h hs
  rw [onLine, List.map_cons, feedAll, hexec]

/-- Bytes within a frame attempt are taken into the buffer one after another, the last byte of the attempt excepted. -/
theorem feedAll_onLine_append (now : Nat) (bytes rest : List Byte) {s : State} (h : s.Accepts now) (hnow : s.lastNow = now)
    (hinv : s.rx.Inv) (hs : s.rx.state.pastLength = true)
    (hlt : s.rx.buf.length + bytes.length < max 11 s.rx.len.toNat) :
    ∃ rx, feedAll now (onLine (bytes ++ rest)) s = feedAll now (onLine rest) { s with rx := rx }
      ∧ rx.Inv ∧ rx.state.pastLength = true ∧ rx.buf = s.rx.buf ++ bytes ∧ rx.len = s.rx.len := by
  induction bytes generalizing s with
  | nil => exact ⟨s.rx, rfl, hinv, hs, (List.append_nil _).symm, rfl⟩
  | cons b tail ih =>
    rw [List.length_cons] at hlt
    rcases hinv.length_of_pastLength hs with ⟨-, hlast⟩ | ⟨hne, hmore⟩
    · omega
    · obtain ⟨htook, hkeep, hpast⟩ := Receiver.advance_took hs hne b
      obtain ⟨rx, hfeed, hinv', hpast', hbuf, hlen⟩ := ih (s := { s with lastNow := now, rx := s.rx.advance b })
        ⟨h.1, le_rfl⟩ rfl (hinv.advance b) hpast (by rw [htook, hkeep, List.length_append, List.length_singleton]; omega)
      refine ⟨rx, ?_, hinv', hpast', ?_, hlen.trans hkeep⟩
      · rw [List.cons_append, feedAll_onLine_cons b _ h hne, hfeed, ← hnow]
      · rw [hbuf, htook, List.append_assoc]; rfl

/-- `Start` keeps the start byte (R151). -/
theorem Receiver.advance_startByte {r : Receiver} (hs : r.state = .start) :
    r.advance startByte = { r with buf := [startByte], state := .sourceAddr } := by
  simp only [Receiver.advance, hs, Receiver.onStart, if_true]

/-- `SourceAddr` reads the address back from its source byte (R152). -/
theorem Receiver.advance_sourceByte {r : Receiver} (hs : r.state = .sourceAddr) (src : BusAddr) :
    r.advance (sourceByte src) = { r with buf := r.buf ++ [sourceByte src], src := src, state := .destAddr } := by
  simp only [Receiver.advance, hs, Receiver.onSourceAddr, if_neg (sourceByte_and_srcMark_ne src), extractLsb_sourceByte]
  rfl

/-- The registers after a frame's first four bytes, taken from `Start` (R151 to R154). -/
def Receiver.addressed (r : Receiver) (f : Frame) : Receiver :=
  { r with state := .command, buf := [startByte, sourceByte f.src, f.dst, f.len], src := f.src, dst := f.dst, len := f.len }

/-- The first four bytes of a frame bring a receiver in `Start` past the length byte. -/
theorem feedAll_onLine_four {s : State} {now : Nat} (f : Frame) (rest : List Byte) (h : s.Accepts now)
    (hs : s.rx.state = .start) :
    feedAll now (onLine (startByte :: sourceByte f.src :: f.dst :: f.len :: rest)) s =
      feedAll now (onLine rest) { s with lastNow := now, rx := s.rx.addressed f } := by
  have hacc (rx : Receiver) : ({ s with lastNow := now, rx := rx } : State).Accepts now := ⟨h.1, le_rfl⟩
  rw [feedAll_onLine_cons _ _ h (by simp [hs]), Receiver.advance_startByte hs,
    feedAll_onLine_cons _ _ (hacc _) (by simp), Receiver.advance_sourceByte rfl,
    feedAll_onLine_cons _ _ (hacc _) (by simp),
    feedAll_onLine_cons _ _ (hacc _) (by simp [Receiver.take, Receiver.advance, Receiver.onDestAddr])]
  rfl

/-- A high byte shifted up and a low byte beside it are the two joined (R161, R162). -/
theorem shiftLeft_or_eq_append (hi lo : Byte) : (hi.zeroExtend 16 <<< 8 : Crc) ||| lo.zeroExtend 16 = hi ++ lo := by
  ext i h
  grind

/-- The registers of a receiver that has taken all of a frame but its last byte are the frame's fields (R168). -/
theorem Receiver.Inv.fields {r : Receiver} {cmd : Byte} {f : Frame} (h : r.Inv) (hs : r.state = .crc1)
    (hbuf : r.buf = receivedBody cmd f ++ [f.crc.extractLsb' 8 8]) :
    r.src = f.src ∧ r.dst = f.dst ∧ r.len = f.len ∧ r.cmd = cmd ∧ r.field = f.field
      ∧ r.crc ||| (f.crc.extractLsb' 0 8).zeroExtend 16 = f.crc := by
  simp only [Receiver.Inv, hs] at h
  obtain ⟨hnine, -, hcrc⟩ := h
  simp only [hbuf, receivedBody, frameBody, Receiver.header, bytes32, List.take_succ_cons, List.take_zero, List.cons_append,
    List.nil_append, List.cons.injEq, and_true] at hnine
  obtain ⟨-, hsrc, hdst, hlen, hcmd, h3, h2, h1, h0⟩ := hnine
  refine ⟨?_, hdst.symm, hlen.symm, hcmd.symm, ?_, ?_⟩
  · rw [← extractLsb_sourceByte r.src, ← hsrc, extractLsb_sourceByte]
  · rw [← append_bytes32 r.field, ← h3, ← h2, ← h1, ← h0, append_bytes32]
  · rw [hcrc, hbuf, List.getLastD_concat, shiftLeft_or_eq_append, append_bytes16]

/-- All bytes of a valid frame but the last bring a receiver in `Start` into `Crc1`, under its invariant. -/
theorem feedAll_onLine_encodeFrame {s : State} {now : Nat} {cmd : Byte} {f : Frame} (h : s.Accepts now)
    (hs : s.rx.state = .start) (hwf : f.wf cmd = true) :
    ∃ rx, feedAll now (onLine (encodeFrame cmd f)) s
        = feedAll now (onLine [f.crc.extractLsb' 0 8]) { s with lastNow := now, rx := rx }
      ∧ rx.Inv ∧ rx.state = .crc1 ∧ rx.buf = receivedBody cmd f ++ [f.crc.extractLsb' 8 8] := by
  obtain ⟨hlen, -⟩ := (frame_wf_iff cmd f).mp hwf
  have hfour := feedAll_onLine_four f
    ((cmd :: bytes32 f.field ++ f.payload ++ [f.crc.extractLsb' 8 8]) ++ [f.crc.extractLsb' 0 8]) h hs
  have hlength : (cmd :: bytes32 f.field ++ f.payload ++ [f.crc.extractLsb' 8 8]).length = 6 + f.payload.length := by
    simp only [List.length_append, List.length_cons, List.length_nil, bytes32]
    omega
  have haddressed : (s.rx.addressed f).buf.length = 4 ∧ (s.rx.addressed f).len = f.len := ⟨rfl, rfl⟩
  obtain ⟨rx, hfeed, hinv, hpast, hbuf, hkeep⟩ := feedAll_onLine_append now
    (cmd :: bytes32 f.field ++ f.payload ++ [f.crc.extractLsb' 8 8]) [f.crc.extractLsb' 0 8]
    (s := { s with lastNow := now, rx := s.rx.addressed f }) ⟨h.1, le_rfl⟩ rfl rfl rfl
    (by rw [haddressed.1, haddressed.2, hlength]; omega)
  refine ⟨rx, ?_, hinv, ?_, hbuf⟩
  · rw [← hfeed, ← hfour, encodeFrame_eq]
    simp [bytes32]
  · rcases hinv.length_of_pastLength hpast with ⟨hcrc1, -⟩ | ⟨-, hlt⟩
    · exact hcrc1
    · rw [hbuf, hkeep, List.length_append, haddressed.1, haddressed.2, hlength] at hlt
      omega

/-- A run of one line byte is one FEED. -/
theorem feedAll_onLine_singleton (now : Nat) (b : Byte) (s : State) :
    feedAll now (onLine [b]) s = exec (.feed now (b ^^^ 0xFF)) s := by
  rw [onLine, List.map_cons, feedAll]
  cases exec (.feed now (b ^^^ 0xFF)) s <;> rfl

/-- The payload of a frame is what lies between its ninth byte and its CRC (R164). -/
theorem payload_of_buffer {cmd : Byte} {f : Frame} (h : f.len.toNat = 11 + f.payload.length) (hi lo : Byte) :
    ((receivedBody cmd f ++ [hi] ++ [lo]).take (f.len.toNat - 2)).drop 9 = f.payload := by
  have hlength : (receivedBody cmd f).length = f.len.toNat - 2 := by
    simp only [receivedBody, frameBody, bytes32, List.length_append, List.length_cons, List.length_nil]
    omega
  rw [List.append_assoc, ← hlength, List.take_left]
  rfl

/-- Settles O35: where only the last byte is missing the invariant says that the registers are the frame's fields, so that byte
runs the frame's row. -/
theorem feedingAFrameRunsItsCommand : Obligations.FeedingAFrameRunsItsCommand := by
  intro s now cmd f h hs hwf
  obtain ⟨hlen, hcrc⟩ := (frame_wf_iff cmd f).mp hwf
  obtain ⟨rx, hfeed, hinv, hcrc1, hbuf⟩ := feedAll_onLine_encodeFrame h hs hwf
  obtain ⟨hsrc, hdst, hlen', hcmd, hfield, hcrc'⟩ := hinv.fields hcrc1 hbuf
  have hlast := feedRunsTheCommandOfAValidFrame { s with lastNow := now, rx := rx } now (f.crc.extractLsb' 0 8)
    ⟨h.1, le_rfl⟩ hcrc1
  simp only [hsrc, hdst, hlen', hcmd, hfield, hcrc', hbuf, List.dropLast_concat, payload_of_buffer hlen] at hlast
  exact hfeed.trans ((feedAll_onLine_singleton now _ _).trans (hlast hcrc.symm (by omega)))

end Sys2Proof.Machine

/-! One step of the machine (20_memory.md R56; 60_exceptions.md R233), what any instruction can do to a point, to the clock and
to the outputs, and the invariant of the block: it holds after reset, every step keeps it, and under it no step faults. -/

namespace Sys2Proof.Machine

/-! ### The step, by the head of the queue -/

theorem step_of_idle {s : State} (h : s.pending = []) : step s = .next s := by
  rw [step, h]

theorem step_of_reset {s : State} {c : Configuration} {rest : List Input} (h : s.pending = .reset c :: rest) :
    step s = .next ((State.resetWith c).setPending rest) := by
  rw [step, h]

theorem step_of_decode_ok {s : State} {code : Code} {rest : List Input} {i : Instr} (h : s.pending = .op code :: rest)
    (hdecode : decode code = .ok i) : step s = exec i (s.begin rest) := by
  simp only [step, h, hdecode]

theorem step_of_decode_error {s : State} {code : Code} {rest : List Input} {why : DecodeError}
    (h : s.pending = .op code :: rest) (hdecode : decode code = .error why) : step s = .refused (.undecodable why) := by
  simp only [step, h, hdecode]

/-- Settles O1. -/
theorem stepRunsDecodedOperation : Obligations.StepRunsDecodedOperation :=
  fun _ _ _ _ h hdecode => step_of_decode_ok h hdecode

/-- Settles O2. -/
theorem stepIdlesOrRefusesUndecodable : Obligations.StepIdlesOrRefusesUndecodable :=
  fun _ => ⟨step_of_idle, fun _ _ _ h hdecode => step_of_decode_error h hdecode⟩

/-- Settles O3. -/
theorem resetInputSetsEveryStateToItsResetValue : Obligations.ResetInputSetsEveryStateToItsResetValue :=
  fun _ _ _ h => step_of_reset h

/-- A point configuration passes the check when a Text point is ReadOnly and the enable byte is a byte (R33). -/
theorem pointConfOk_iff (p : PointConf) :
    pointConfOk p = true ↔ (p.encoding = .text → p.kind = .readOnly) ∧ p.enableByte ≤ 255 := by
  simp [pointConfOk, imp_iff_not_or]

/-- Settles O4: the conditions on the points are those of each point, and a `∀` distributes over them. -/
theorem configurationCheckIsTheFourConditions : Obligations.ConfigurationCheckIsTheFourConditions := by
  intro c
  simp only [configOk, Bool.and_eq_true, decide_eq_true_eq, List.all_eq_true, pointConfOk_iff, and_assoc,
    forall_and]

/-! ### What an instruction can do to a point -/

/-- What one instruction can do to one point: nothing, what a TICK does, the bookkeeping of an answer or of an
acknowledgement, or a write. -/
inductive Point.Step (i : Instr) (p : Point) : Point → Prop
  | same : Point.Step i p p
  | ticked (now interval : Nat) (q : Point) : Point.Ticked now interval p q → Point.Step i p q
  | answered (now : Nat) : Point.Step i p (p.answered now)
  | acknowledged : p.isWritable = true → Point.Step i p p.acknowledged
  | written (now k : Nat) (v : Rat) : i = .write now k v → p.conf.kind = .writable → inDomain p.conf.encoding v = true
      → Point.Step i p (p.written v)

/-- A table left as it is. -/
theorem forall2_step_refl (i : Instr) (l : List Point) : List.Forall₂ (Point.Step i) l l :=
  List.forall₂_same.mpr fun _ _ => .same

/-- A delivery is a step of each point. -/
theorem State.deliver_points_step (i : Instr) (s : State) (pkt : Packet) (now : Nat) :
    List.Forall₂ (Point.Step i) s.points (s.deliver pkt now).points := by
  obtain ⟨f, hmap, hf⟩ := s.deliver_points_eq_map pkt now
  rw [hmap, List.forall₂_map_right_iff]
  refine List.forall₂_same.mpr fun p _ => ?_
  rcases hf p with h | h | ⟨hw, h⟩ <;> rw [h]
  · exact .same
  · exact .answered now
  · exact .acknowledged hw

/-- Every effect of an instruction on the point table is a step of each point. -/
theorem Effect.points_step {i : Instr} {s t : State} (h : Effect i s t) : List.Forall₂ (Point.Step i) s.points t.points := by
  cases h with
  | same | raise | answer => exact forall2_step_refl i s.points
  | feed now raw =>
    rw [State.rxStep_eq]
    split
    · exact State.deliver_points_step i (s.setLastNow now) _ now
    · exact forall2_step_refl i s.points
  | tick now ps evs _ _ hticked => exact hticked.imp fun _ q hq => .ticked now _ q hq
  | write now k v p hi _ hp hw hv =>
    obtain ⟨hk, rfl⟩ := List.getElem?_eq_some_iff.mp hp
    refine List.forall₂_iff_get.mpr ⟨by simp, fun j h1 h2 => ?_⟩
    rcases eq_or_ne k j with rfl | hne
    · simpa using Point.Step.written now k v hi hw hv
    · simpa [List.getElem_set_ne hne] using Point.Step.same
  | deliver cmd f => exact State.deliver_points_step i s _ _

/-- No instruction changes a point's configuration (R30). -/
theorem Point.Step.conf_eq {i : Instr} {p q : Point} (h : Point.Step i p q) : q.conf = p.conf := by
  cases h with
  | ticked now interval q hq => exact hq.keeps.1
  | _ => rfl

/-- Only a WRITE sets a target or a dirty flag (R37, R195). -/
theorem Point.Step.keeps_write {i : Instr} {p q : Point} (h : Point.Step i p q) (hi : ∀ now k v, i ≠ .write now k v) :
    q.target = p.target ∧ (q.dirty = true → p.dirty = true) := by
  cases h with
  | same | answered => exact ⟨rfl, id⟩
  | ticked now interval q hq => exact hq.keeps.2
  | acknowledged => exact ⟨rfl, nofun⟩
  | written now k v hwrite => exact absurd hwrite (hi now k v)

/-- Settles O59: the k-th point makes a step of its own, and only that of a WRITE touches target and dirty flag. -/
theorem onlyWriteSetsDirtyAndTarget : Obligations.OnlyWriteSetsDirtyAndTarget := by
  intro i s t k p hi hexec hp
  have hstep := (effect_of_exec i s t hexec).points_step
  obtain ⟨hk, rfl⟩ := List.getElem?_eq_some_iff.mp hp
  have hk' : k < t.points.length := hstep.length_eq ▸ hk
  exact ⟨t.points[k], List.getElem?_eq_getElem hk', (hstep.get hk hk').keeps_write hi⟩

/-- Steps of the points leave the configuration the state holds. -/
theorem map_conf_of_step {i : Instr} {l l' : List Point} (h : List.Forall₂ (Point.Step i) l l') :
    l'.map Point.conf = l.map Point.conf := by
  induction h with
  | nil => rfl
  | cons hp _ ih => rw [List.map_cons, List.map_cons, ih, hp.conf_eq]

/-! ### What an instruction leaves alone -/

/-- No effect changes the block-wide configuration, turns the clock back, or touches the inputs behind it. -/
theorem Effect.keeps {i : Instr} {s t : State} (h : Effect i s t) :
    t.cfg = s.cfg ∧ s.lastNow ≤ t.lastNow ∧ t.pending = s.pending := by
  cases h with
  | same | raise | answer => exact ⟨rfl, le_rfl, rfl⟩
  | feed now raw _ hacc => simpa using hacc.2
  | tick now ps evs _ hacc | write now k v p _ hacc => exact ⟨rfl, hacc.2, rfl⟩
  | deliver => simp

/-- An effect leaves the fault register, or raises a code other than F_CONFIG in a block without a fault (R223, R225). -/
theorem Effect.fault_cases {i : Instr} {s t : State} (h : Effect i s t) :
    t.fault = s.fault ∨ (s.fault = none ∧ ∃ r, r ≠ .config ∧ t.fault = some r) := by
  cases h with
  | same | answer | tick | write => exact .inl rfl
  | raise r hnone hr => exact .inr ⟨hnone, r, hr, rfl⟩
  | feed => exact .inl (State.rxStep_fault _ _ _)
  | deliver => exact .inl (State.deliver_fault _ _ _)

/-- Settles O56. -/
theorem noOperationUndoesConfigurationClockOrFault : Obligations.NoOperationUndoesConfigurationClockOrFault := by
  intro i s t hexec
  have heffect := effect_of_exec i s t hexec
  obtain ⟨hcfg, hnow, hpending⟩ := heffect.keeps
  refine ⟨?_, hnow, fun r hr => ?_, hpending⟩
  · rw [State.config, State.config, hcfg, map_conf_of_step heffect.points_step]
  · rcases heffect.fault_cases with hkeep | ⟨hnone, -⟩
    · exact hkeep.trans hr
    · simp [hnone] at hr

/-! ### What an instruction emits (R197, R227) -/

/-- The events of an Info or Ret are published values (R192). -/
theorem isValue_of_mem_valueEvents (pkt : Packet) (i : Nat) (points : List Point) :
    ∀ e ∈ valueEvents pkt i points, e.isValue = true := by
  induction points generalizing i with
  | nil => simp [valueEvents]
  | cons p rest ih =>
    unfold valueEvents
    split
    · exact List.forall_mem_cons.mpr ⟨rfl, ih (i + 1)⟩
    · exact ih (i + 1)

/-- A delivery emits its packet, then values only (R164, R192). -/
theorem State.deliver_out (s : State) (pkt : Packet) (now : Nat) :
    ∃ values, (s.deliver pkt now).out = s.out ++ .packet pkt :: values ∧ ∀ e ∈ values, e.isValue = true := by
  rcases (s.emit [.packet pkt]).dispatch_cases pkt now with h | h | h
  · exact ⟨valueEvents pkt 0 s.points, by simp [State.deliver, h, State.updateMatching],
      isValue_of_mem_valueEvents pkt 0 s.points⟩
  · exact ⟨[], by simp [State.deliver, h, State.commitMatching], by simp⟩
  · exact ⟨[], by simp [State.deliver, h], by simp⟩

/-- The events of one instruction: a TICK's are none or one transmission, any other's none or a packet and values. -/
def Emits (i : Instr) (s t : State) : Prop :=
  ∃ events, t.out = s.out ++ events
    ∧ ((∃ now, i = .tick now) → events = [] ∨ ∃ bytes, events = [.tx bytes])
    ∧ ((∀ now, i ≠ .tick now) → events = [] ∨ ∃ p values, events = .packet p :: values ∧ ∀ e ∈ values, e.isValue = true)

/-- An instruction that leaves the outputs emits nothing. -/
theorem emits_of_out_eq {i : Instr} {s t : State} (h : t.out = s.out) : Emits i s t :=
  ⟨[], by rw [h, List.append_nil], fun _ => .inl rfl, fun _ => .inl rfl⟩

/-- An instruction other than TICK that delivers emits a packet and values. -/
theorem emits_of_deliver {i : Instr} (hi : ∀ now, i ≠ .tick now) {s t u : State} (pkt : Packet) (now : Nat)
    (hu : u.out = s.out) (ht : t.out = (u.deliver pkt now).out) : Emits i s t := by
  obtain ⟨values, hout, hvalues⟩ := u.deliver_out pkt now
  refine ⟨.packet pkt :: values, by rw [ht, hout, hu], ?_, fun _ => .inr ⟨pkt, values, rfl, hvalues⟩⟩
  rintro ⟨now', rfl⟩
  exact absurd rfl (hi now')

/-- Settles O58. -/
theorem onlyTickTransmits : Obligations.OnlyTickTransmits := by
  intro i s t hexec
  change Emits i s t
  cases effect_of_exec i s t hexec with
  | same | raise | answer | write => exact emits_of_out_eq rfl
  | feed now raw hi =>
    rw [State.rxStep_eq]
    split
    · exact emits_of_deliver (u := s.setLastNow now) (fun _ => by simp [hi]) _ now rfl rfl
    · exact emits_of_out_eq rfl
  | tick now ps events hi _ _ hevents => exact ⟨events, rfl, fun _ => hevents, fun hne => absurd hi (hne now)⟩
  | deliver cmd f htick => exact emits_of_deliver htick _ _ rfl rfl

/-! ### The invariant -/

/-- A point after reset meets its invariant (R31, R250). -/
theorem Point.inv_reset (conf : PointConf) : (Point.reset conf).Inv := by
  simp [Point.reset, Point.Inv]

/-- A state after reset holds the configuration it was reset under (R252). -/
@[simp] theorem State.config_resetWith (c : Configuration) : (State.resetWith c).config = c := by
  simp [State.config, Function.comp_def]

/-- Settles O53. -/
theorem everyResetMeetsTheInvariant : Obligations.EveryResetMeetsTheInvariant := by
  intro c
  refine ⟨rfl, ?_, ?_⟩
  · intro p hp
    obtain ⟨conf, -, rfl⟩ := List.mem_map.mp hp
    exact Point.inv_reset conf
  · rw [State.config_resetWith, State.resetWith_fault]
    cases configOk c <;> simp

/-- Settles O52. -/
theorem resetStateMeetsTheInvariant : Obligations.ResetStateMeetsTheInvariant :=
  everyResetMeetsTheInvariant emptyConfiguration

/-- A re-arm of the set counter keeps a point's invariant (R181). -/
theorem Point.Inv.rearmSet {p : Point} (h : p.Inv) (now : Nat) : (p.rearmSet now).Inv := by
  obtain ⟨hget, hset, htarget, hdomain, hsensor⟩ := h
  unfold Point.rearmSet
  split
  · exact ⟨hget, Nat.zero_le 5, htarget, hdomain, fun hk => ⟨(hsensor hk).1, (hsensor hk).2.1, rfl⟩⟩
  · exact ⟨hget, hset, htarget, hdomain, hsensor⟩

/-- A re-arm of the get counter keeps a point's invariant (R182). -/
theorem Point.Inv.rearmGet {p : Point} (h : p.Inv) (now : Nat) : (p.rearmGet now).Inv := by
  obtain ⟨hget, hset, htarget, hdomain, hsensor⟩ := h
  unfold Point.rearmGet
  split
  · exact ⟨Nat.zero_le 5, hset, htarget, hdomain, hsensor⟩
  · exact ⟨hget, hset, htarget, hdomain, hsensor⟩

/-- The bookkeeping of a write keeps the invariant of a writable point that was ready, so below five sends (R38). -/
theorem Point.Inv.sentWrite {p : Point} (h : p.Inv) (now interval : Nat) (hw : p.isWritable = true)
    (hready : p.readyToSet = true) : (p.sentWrite now interval).Inv := by
  obtain ⟨hget, -, htarget, hdomain, -⟩ := h
  have hcount : p.setCount < 5 := of_decide_eq_true (Bool.and_eq_true_iff.mp hready).1
  have hkind : ¬ p.conf.kind = .readOnly := by simp [(Point.isWritable_iff p).mp hw]
  unfold Point.sentWrite
  split
  · exact ⟨hget, Nat.zero_le 5, nofun, hdomain, fun hk => absurd hk hkind⟩
  · exact ⟨hget, hcount, htarget, hdomain, fun hk => absurd hk hkind⟩

/-- The bookkeeping of a Get keeps the invariant of a point that was ready, so below five Gets (R38). -/
theorem Point.Inv.sentGet {p : Point} (h : p.Inv) {now : Nat} (hready : p.readyToUpdate now = true) : p.sentGet.Inv := by
  obtain ⟨-, hrest⟩ := h
  have hcount : p.getCount < 5 := of_decide_eq_true (Bool.and_eq_true_iff.mp hready).1
  exact ⟨hcount, hrest⟩

/-- What a TICK does to a point keeps the point's invariant (R38, R183). -/
theorem Point.Inv.ticked {now interval : Nat} {p q : Point} (h : p.Inv) (hq : Point.Ticked now interval p q) : q.Inv := by
  cases hq with
  | same => exact h
  | setRearmed => exact h.rearmSet now
  | getRearmed => exact h.rearmGet now
  | bothRearmed => exact (h.rearmSet now).rearmGet now
  | wrote hw hready => exact (h.rearmSet now).sentWrite now interval (by simpa using hw) hready
  | polledWritable _ hready => exact ((h.rearmSet now).rearmGet now).sentGet hready
  | polledSensor _ hready => exact (h.rearmGet now).sentGet hready

/-- Every step of a point keeps its invariant. -/
theorem Point.Inv.step {i : Instr} {p q : Point} (h : p.Inv) (hq : Point.Step i p q) : q.Inv := by
  obtain ⟨hget, hset, htarget, hdomain, hsensor⟩ := h
  cases hq with
  | same => exact ⟨hget, hset, htarget, hdomain, hsensor⟩
  | ticked now interval q hticked => exact Point.Inv.ticked ⟨hget, hset, htarget, hdomain, hsensor⟩ hticked
  | answered now => exact ⟨Nat.zero_le 5, hset, htarget, hdomain, hsensor⟩
  | acknowledged => exact ⟨hget, Nat.zero_le 5, nofun, hdomain, fun hk => ⟨rfl, (hsensor hk).2.1, rfl⟩⟩
  | written now k v _ hw hv =>
    refine ⟨hget, hset, fun _ => nofun, ?_, ?_⟩
    · rintro _ ⟨⟩
      exact hv
    · intro hk
      exact absurd (hw.symm.trans hk) nofun

/-- Every effect keeps the receiver's invariant (R168). -/
theorem Effect.rx_inv {i : Instr} {s t : State} (h : Effect i s t) (hinv : s.rx.Inv) : t.rx.Inv := by
  cases h with
  | same | raise | answer | tick | write => exact hinv
  | feed now raw => exact State.rxStep_rx _ _ _ ▸ hinv.advance (invertByte raw)
  | deliver => rwa [State.deliver_rx]

/-- Steps of the points keep every point's invariant. -/
theorem forall_inv_of_step {i : Instr} {l l' : List Point} (h : List.Forall₂ (Point.Step i) l l') (hl : ∀ p ∈ l, p.Inv) :
    ∀ p ∈ l', p.Inv := by
  induction h with
  | nil => exact hl
  | cons hp _ ih =>
    obtain ⟨hhead, htail⟩ := List.forall_mem_cons.mp hl
    exact List.forall_mem_cons.mpr ⟨hhead.step hp, ih htail⟩

/-- Every effect keeps the invariant of the block. -/
theorem Effect.inv {i : Instr} {s t : State} (h : Effect i s t) (hinv : s.Inv) : t.Inv := by
  obtain ⟨hrx, hpoints, hfault⟩ := hinv
  have hconfig : t.config = s.config := by
    rw [State.config, State.config, h.keeps.1, map_conf_of_step h.points_step]
  refine ⟨h.rx_inv hrx, forall_inv_of_step h.points_step hpoints, ?_⟩
  rw [hconfig]
  rcases h.fault_cases with hkeep | ⟨hnone, r, hr, hraised⟩
  · rw [hkeep, hfault]
  · rw [← hfault, hnone, hraised]
    simp [hr]

/-- Settles O54: a reset establishes the invariant, and every effect of an instruction keeps it. -/
theorem stepKeepsTheInvariant : Obligations.StepKeepsTheInvariant := by
  intro s t hinv hstep
  rcases hpending : s.pending with _ | ⟨c | code, rest⟩
  · rw [step_of_idle hpending] at hstep
    injection hstep with hstep
    exact hstep ▸ hinv
  · rw [step_of_reset hpending] at hstep
    injection hstep with hstep
    exact hstep ▸ everyResetMeetsTheInvariant c
  · rcases hdecode : decode code with why | i
    · rw [step_of_decode_error hpending hdecode] at hstep
      cases hstep
    · rw [step_of_decode_ok hpending hdecode] at hstep
      have hbegin : (s.begin rest).Inv := hinv
      exact (effect_of_exec i _ t hstep).inv hbegin

/-! ### Under the invariant a step completes (R85, R183) -/

/-- A checked request completes when its body does. -/
theorem State.checked_completes (s : State) (now : Nat) {body : Result} (h : ∃ t, body = .next t) :
    ∃ t, s.checked now body = .next t := by
  rcases s.checked_cases now body with ⟨-, e⟩ | ⟨-, -, e⟩ | ⟨-, -, e⟩
  · exact ⟨_, e⟩
  · exact ⟨_, e⟩
  · rwa [e]

/-- A frame row completes. -/
theorem deliverFrame_completes (cmd : Byte) (f : Frame) (s : State) : ∃ t, deliverFrame cmd f s = .next t := by
  rcases deliverFrame_cases cmd f s with ⟨-, e⟩ | ⟨-, e⟩
  · exact ⟨_, e⟩
  · exact ⟨_, e⟩

/-- A WRITE completes (R195). -/
theorem execWrite_completes (now k : Nat) (v : Rat) (s : State) : ∃ t, execWrite now k v s = .next t := by
  refine s.checked_completes now ?_
  split
  · exact ⟨_, rfl⟩
  · split
    · exact ⟨_, rfl⟩
    · split
      · exact ⟨_, rfl⟩
      · exact ⟨_, rfl⟩

/-- For every encoding with a value in its domain the point's selector has a builder: only Text has none (R133, R146). -/
theorem build_ne_unused {conf : PointConf} {v : Rat} (h : inDomain conf.encoding v = true) (a : BuildArgs) :
    build (builderSelector conf) a ≠ .unused := by
  unfold builderSelector
  cases henc : conf.encoding
  case text => simp [henc, inDomain] at h
  all_goals cases conf.isBroadcast <;> intro hc <;> cases hc

/-- Under the invariant the arbiter completes: a ready write has a target, in the domain of an encoding with a builder. -/
theorem State.arbitrate_completes {s : State} (h : ∀ p ∈ s.points, p.Inv) (now : Nat) : ∃ t, s.arbitrate now = .next t := by
  rcases scan_cases Point.isWritable (Point.rearmSet now) Point.readyToSet s.points with
    ⟨-, hmissed⟩ | ⟨before, p, after, hpoints, -, -, hready, hfound⟩
  · rcases hpolls : scanWritablePolls now (s.points.map (passed Point.isWritable (Point.rearmSet now))) with ⟨b, p, a⟩ | ps
    · exact ⟨_, State.arbitrate_writablePoll hmissed hpolls⟩
    · rcases hsensors : scanSensorPolls now ps with ⟨b, p, a⟩ | qs
      · exact ⟨_, State.arbitrate_sensorPoll hmissed hpolls hsensors⟩
      · exact ⟨_, State.arbitrate_none hmissed hpolls hsensors⟩
  · obtain ⟨-, -, htarget, hdomain, -⟩ := h p (by simp [hpoints])
    obtain ⟨hdirty, -⟩ := (Point.readyToSet_rearmSet_iff p now).mp hready
    rw [State.arbitrate_write hfound]
    rcases State.sendWrite_cases s now (before.map (passed Point.isWritable (Point.rearmSet now))) (p.rearmSet now) after with
      ⟨hnone, -⟩ | ⟨v, hv, ⟨q, -, e⟩ | ⟨-, e⟩ | ⟨hunused, -⟩⟩
    · exact absurd ((Point.rearmSet_target p now).symm.trans hnone) (htarget hdirty)
    · exact ⟨_, e⟩
    · exact ⟨_, e⟩
    · rw [Point.rearmSet_target] at hv
      rw [Point.rearmSet_conf] at hunused
      exact absurd hunused (build_ne_unused (hdomain v hv) _)

/-- Under the invariant every instruction but the two unused rows completes. -/
theorem exec_completes {s : State} (h : s.Inv) (i : Instr) :
    (∃ t, exec i s = .next t) ∨ (∃ low a, i = .selUnused low a) ∨ ∃ p, i = .parseUnused7 p := by
  obtain ⟨-, hpoints, -⟩ := h
  cases i with
  | selUnused low a => exact .inr (.inl ⟨low, a, rfl⟩)
  | parseUnused7 p => exact .inr (.inr ⟨p, rfl⟩)
  | feed now raw => exact .inl (s.checked_completes now ⟨_, rfl⟩)
  | tick now => exact .inl (s.checked_completes now (State.arbitrate_completes (s := s.setLastNow now) hpoints now))
  | write now k v => exact .inl (execWrite_completes now k v s)
  | reservedOp now operand =>
    left
    change ∃ t, s.unlessFaulted (.next (s.raise .op)) = .next t
    rcases hf : s.fault with _ | r
    · exact ⟨_, State.unlessFaulted_clear _ hf⟩
    · exact ⟨_, State.unlessFaulted_faulted _ hf⟩
  | cmdNone f | cmdOpaque01 f | cmdInf f | cmdSet f | cmdAck f | cmdNack f | cmdGet f | cmdRet f =>
    exact .inl (deliverFrame_completes _ f s)
  | cmdOpaque08 low f | cmdOpaque10 low f | cmdOpaque20 low f | cmdOpaque40 low f | cmdOpaque80 low f =>
    exact .inl (deliverFrame_completes _ f s)
  | _ => exact .inl ⟨_, rfl⟩

/-- Under the invariant a step completes, or its operation is no instruction or one of the two unused rows. -/
theorem step_completes {s : State} (h : s.Inv) :
    (∃ t, step s = .next t) ∨ ∃ code rest, s.pending = .op code :: rest
      ∧ ((∃ e, decode code = .error e) ∨ (∃ low a, decode code = .ok (.selUnused low a))
        ∨ ∃ p, decode code = .ok (.parseUnused7 p)) := by
  rcases hpending : s.pending with _ | ⟨c | code, rest⟩
  · exact .inl ⟨_, step_of_idle hpending⟩
  · exact .inl ⟨_, step_of_reset hpending⟩
  · rcases hdecode : decode code with why | i
    · exact .inr ⟨code, rest, rfl, .inl ⟨why, hdecode⟩⟩
    · have hbegin : (s.begin rest).Inv := h
      rcases exec_completes hbegin i with ⟨t, ht⟩ | ⟨low, a, rfl⟩ | ⟨p, rfl⟩
      · exact .inl ⟨t, (step_of_decode_ok hpending hdecode).trans ht⟩
      · exact .inr ⟨code, rest, rfl, .inr (.inl ⟨low, a, hdecode⟩)⟩
      · exact .inr ⟨code, rest, rfl, .inr (.inr ⟨p, hdecode⟩)⟩

/-- The operations under which a step may stop are refused, and never a fault. -/
theorem step_ne_fault {s : State} (h : s.Inv) (r : Fault) : step s ≠ .fault r := by
  rcases step_completes h with ⟨t, ht⟩ | ⟨code, rest, hpending, ⟨e, he⟩ | ⟨low, a, he⟩ | ⟨p, he⟩⟩
  · simp [ht]
  · simp [step_of_decode_error hpending he]
  · simp [step_of_decode_ok hpending he]
  · simp [step_of_decode_ok hpending he]

/-- Settles O55. -/
theorem stepNeverFaultsAndRefusesOnlyUndecodableOrUnused : Obligations.StepNeverFaultsAndRefusesOnlyUndecodableOrUnused := by
  refine fun s h => ⟨step_ne_fault h, fun why hwhy => ?_⟩
  rcases step_completes h with ⟨t, ht⟩ | hstop
  · exact absurd (ht.symm.trans hwhy) nofun
  · exact hstop

end Sys2Proof.Machine

/-! The builders by selector (42_builders.md R133 to R146), the byte, temperature and text parsers (41_packet_model.md R113 to
R121), and that parsing a built payload gives the written value back (R147). -/

namespace Sys2Proof.Machine

/-! ### Domains (R133) -/

/-- A value's fixed-point number is the integer nearest to 64 times it (R11, R133). -/
theorem isRounded_iff_scaled (z : Int) (v : Rat) : IsRounded z (v * 64) ↔ scaled v = z :=
  isRounded_iff z (v * 64)

/-- The domain of the temperatures: the nearest integer to 64 times the value fits 16 bits. -/
theorem scaled_within_iff (v : Rat) :
    (decide (-32768 ≤ scaled v) && decide (scaled v ≤ 32767)) = true
      ↔ ∃ z : Int, IsRounded z (v * 64) ∧ -32768 ≤ z ∧ z ≤ 32767 := by
  simp [isRounded_iff_scaled]

/-- The domain of Int32, its bounds as powers of two. -/
theorem int32_within_iff (v : Rat) : inDomain .int32 v = true ↔ ∃ z : Int, v = z ∧ -2 ^ 31 ≤ z ∧ z ≤ 2 ^ 31 - 1 := by
  norm_num
  exact intWithin_eq_true_iff (-2147483648) 2147483647 v

/-- Settles O21: the integer domains by `intWithin_eq_true_iff`, those of the temperatures by `scaled_within_iff`. -/
theorem domainsOfWrittenValues : Obligations.DomainsOfWrittenValues :=
  fun v => ⟨intWithin_eq_true_iff 0 255 v, intWithin_eq_true_iff (-128) 127 v, intWithin_eq_true_iff (-32768) 32767 v,
    int32_within_iff v, scaled_within_iff v, scaled_within_iff v⟩

/-! ### What a selector builds -/

/-- The result of a builder's row: what it builds on the answer port, or the refusal of an unused selector. -/
def Built.result (s : State) : Built → Result
  | .packet p => .next (s.answer (.packet p))
  | .noPacket => .next (s.answer .noPacket)
  | .unused => .refused .unusedSelector

/-- The row of a builder selector answers what the selector builds. -/
theorem exec_instrOfSelector (sel : BitVec 4) (a : BuildArgs) (s : State) :
    exec (instrOfSelector sel a) s = (build sel a).result s := by
  rcases builderSelector_cases sel with
    rfl | rfl | rfl | rfl | rfl | rfl | rfl | rfl | rfl | rfl | rfl | rfl | rfl | rfl | rfl | rfl <;> rfl

/-- A builder form that returns a packet returns what its selector builds. -/
theorem build_of_returned {sel : BitVec 4} {a : BuildArgs} {i : Instr} {s t : State} {p : Packet}
    (hdecode : decode (.builder sel a) = .ok i) (hexec : exec i s = .next t) (hret : t.ret = some (.packet p)) :
    build sel a = .packet p := by
  injection hdecode with hi
  rw [← hi, exec_instrOfSelector] at hexec
  rcases hb : build sel a with q | _ | _ <;> rw [hb] at hexec
  · injection hexec with ht
    rw [← ht, State.answer_ret] at hret
    injection hret with hret
    injection hret with hret
    rw [hret]
  · injection hexec with ht
    rw [← ht, State.answer_ret] at hret
    injection hret with hret
    cases hret
  · cases hexec

/-- A packet that a builder returns: a Set or an Info with a short payload, its length and CRC filled in (R110, R131). -/
def IsBuilt (p : Packet) : Prop :=
  ∃ q : Packet, p = fillPacket q ∧ q.payload.length ≤ 244 ∧ (q.cmd = cmdSetCode ∨ q.cmd = cmdInfo)

/-- An encoding has at most four value bytes (R79). -/
theorem length_valueBytes_le (enc : Encoding) (v : Rat) : (valueBytes enc v).length ≤ 4 := by
  cases enc <;> simp [valueBytes, bytes16, bytes32]

/-- A qualified payload is short enough for a frame (R71). -/
theorem length_qualifiedPayload_le (enc : Encoding) (a : BuildArgs) : (qualifiedPayload enc a).length ≤ 244 := by
  have hle := length_valueBytes_le enc a.value
  rw [qualifiedPayload, List.length_cons]
  omega

/-- A Set with a qualified payload. -/
theorem isBuilt_setPacket (enc : Encoding) (a : BuildArgs) : IsBuilt (setPacket a (qualifiedPayload enc a)) :=
  ⟨_, rfl, length_qualifiedPayload_le enc a, .inl rfl⟩

/-- An Info with a qualified payload. -/
theorem isBuilt_infoPacket (enc : Encoding) (a : BuildArgs) : IsBuilt (infoPacket a (qualifiedPayload enc a)) :=
  ⟨_, rfl, length_qualifiedPayload_le enc a, .inr rfl⟩

/-- The Info of RoomTemperature has no qualifier, but a zero byte (R145). -/
theorem isBuilt_infRoomTemp (a : BuildArgs) : IsBuilt (buildInfRoomTemp a) :=
  ⟨_, rfl, by simp [valueBytes, bytes16], .inr rfl⟩

/-- Every packet a selector builds is a filled Set or Info. -/
theorem isBuilt_of_build {sel : BitVec 4} {a : BuildArgs} {p : Packet} (h : build sel a = .packet p) : IsBuilt p := by
  rcases builderSelector_cases sel with
    rfl | rfl | rfl | rfl | rfl | rfl | rfl | rfl | rfl | rfl | rfl | rfl | rfl | rfl | rfl | rfl <;>
    cases h
  · exact isBuilt_setPacket .uint8 a
  · exact isBuilt_infoPacket .uint8 a
  · exact isBuilt_setPacket .int8 a
  · exact isBuilt_infoPacket .int8 a
  · exact isBuilt_setPacket .int16 a
  · exact isBuilt_infoPacket .int16 a
  · exact isBuilt_setPacket .int32 a
  · exact isBuilt_infoPacket .int32 a
  · exact isBuilt_setPacket .temperature a
  · exact isBuilt_infoPacket .temperature a
  · exact isBuilt_infRoomTemp a

/-- A filled packet with a short payload is the built packet of its own fields (R110, R112). -/
theorem fillPacket_eq_builtPacket {q : Packet} (h : q.payload.length ≤ 244) :
    fillPacket q = builtPacket (fillPacket q).cmd (fillPacket q).src (fillPacket q).dst (fillPacket q).field
      (fillPacket q).payload :=
  fillPacket_eq_built q h

/-- Settles O20: what a selector builds and the Get are filled packets. -/
theorem builtPacketsCarryLengthAndCrc : Obligations.BuiltPacketsCarryLengthAndCrc := by
  intro c i s t p hformat hdecode hexec hret
  cases c with
  | builder sel a =>
    obtain ⟨q, rfl, hq, -⟩ := isBuilt_of_build (build_of_returned hdecode hexec hret)
    exact fillPacket_eq_builtPacket hq
  | builderGet e src dst field =>
    injection hdecode with hi
    rw [← hi, exec_buildGet] at hexec
    injection hexec with ht
    rw [← ht, State.answer_ret] at hret
    injection hret with hret
    injection hret with hret
    rw [← hret]
    exact fillPacket_eq_builtPacket (Nat.zero_le 244)
  | req | frame | parser | crc16 | serialize => simp [Code.format] at hformat

/-! ### The rows of the temperatures (R142 to R145) -/

section Rows

variable (a : BuildArgs) (s : State)

@[simp] theorem exec_setTemp :
    exec (.setTemp a) s = .next (s.answer (.packet (setPacket a (qualifiedPayload .temperature a)))) := rfl

@[simp] theorem exec_infTemp :
    exec (.infTemp a) s = .next (s.answer (.packet (infoPacket a (qualifiedPayload .temperature a)))) := rfl

@[simp] theorem exec_setRoomTemp : exec (.setRoomTemp a) s = .next (s.answer .noPacket) := rfl

@[simp] theorem exec_infRoomTemp :
    exec (.infRoomTemp a) s =
      .next (s.answer (.packet (infoPacket a (valueBytes .roomTemperature a.value ++ [0x00])))) := rfl

end Rows

/-- Settles O19. -/
theorem unicastRoomTemperatureBuildsNothing : Obligations.UnicastRoomTemperatureBuildsNothing :=
  exec_setRoomTemp

/-- Settles O18: the three rows share the two bytes of the rounded number. -/
theorem temperatureBuildersRoundHalfAwayFromZero : Obligations.TemperatureBuildersRoundHalfAwayFromZero := by
  intro a s
  refine ⟨_, _, returnsPacket_of_exec_setPacket (exec_setTemp a s), returnsPacket_of_exec_infoPacket (exec_infTemp a s),
    returnsPacket_of_exec_fillPacket (exec_infRoomTemp a s), fun z hz => ?_⟩
  rw [← (isRounded_iff_scaled z a.value).mp hz]
  exact ofInt_two_bytes (scaled a.value)

/-! ### The byte, temperature and text parsers -/

/-- A byte as a signed number. -/
theorem toInt_byte (b : Byte) : b.toInt = asSigned 8 b.toNat := by
  rw [BitVec.toInt_eq_toNat_cond, asSigned]
  have hlt := b.isLt
  split <;> split <;> omega

/-- The byte parsers give the default pair on any length but 2 (R121, D18). -/
theorem parse8_of_length_ne {p : List Byte} (h : p.length ≠ 2) :
    parseUnsigned8 p = (0, false) ∧ parseSigned8 p = (0, false) := by
  rcases p with _ | ⟨q, _ | ⟨b, _ | ⟨c, rest⟩⟩⟩
  · exact ⟨rfl, rfl⟩
  · exact ⟨rfl, rfl⟩
  · exact absurd rfl h
  · exact ⟨rfl, rfl⟩

/-- Every parser row returns what its encoding decodes to, whatever the state (R120, logs 5 and 21). -/
theorem returnsValue_of_decodeValue {i : Instr} {enc : Encoding} {p : List Byte} {s : State} {v : Value} {ok : Bool}
    (hrow : exec i s = parseAnswer enc p s) (h : decodeValue enc p = (v, ok)) : ReturnsValue i s v ok := by
  rw [ReturnsValue, hrow, parseAnswer, h, State.answer]

/-- Settles O22: the payload's length decides what the rows' two parsers give. -/
theorem byteParsersReadTheSecondByte : Obligations.ByteParsersReadTheSecondByte := by
  intro s
  refine ⟨fun q b => ⟨rfl, ?_⟩, fun p hp => ?_⟩
  · exact returnsValue_of_decodeValue (enc := .int8) rfl (by rw [← toInt_byte]; rfl)
  · obtain ⟨hu, hs⟩ := parse8_of_length_ne hp
    exact ⟨returnsValue_of_decodeValue (enc := .uint8) rfl (by rw [decodeValue, hu]),
      returnsValue_of_decodeValue (enc := .int8) rfl (by rw [decodeValue, hs])⟩

/-- The temperature parsers divide what `parse_i16` reads by 64 (R116, R119). -/
theorem decodeValue_temperature {p : List Byte} {z : Int} {ok : Bool} (h : parseSigned16 p = (z, ok)) :
    decodeValue .temperature p = (.rat (z / 64), ok) ∧ decodeValue .roomTemperature p = (.rat (z / 64), ok) := by
  simp only [decodeValue, parseRoomTemperature, parseTemperature, h, tempScale, and_self]

/-- Settles O24: both rows return `parse_i16` divided by 64, and the text row its payload. -/
theorem temperatureAndTextParsersAreExact : Obligations.TemperatureAndTextParsersAreExact := by
  intro s
  refine ⟨fun q b1 b0 => ?_, fun p hp => ?_, fun p => rfl⟩
  · obtain ⟨ht, hr⟩ := decodeValue_temperature (parseSigned16_qualified q b1 b0)
    exact ⟨_, div_mul_cancel₀ _ (by norm_num), returnsValue_of_decodeValue rfl ht, returnsValue_of_decodeValue rfl hr⟩
  · obtain ⟨ht, hr⟩ := decodeValue_temperature (parseSigned16_of_length_ne hp)
    have hzero : (((0 : Int) : Rat) / 64) = 0 := by norm_num
    rw [hzero] at ht hr
    exact ⟨returnsValue_of_decodeValue rfl ht, returnsValue_of_decodeValue rfl hr⟩

/-! ### Round trip of a value (R147) -/

/-- The unicast builder of every encoding but RoomTemperature and Text is a Set with a qualified payload. -/
theorem build_unicast {enc : Encoding} (hroom : enc ≠ .roomTemperature) (htext : enc ≠ .text) (a : BuildArgs) :
    build (encodingCode enc ++ 0#1) a = .packet (setPacket a (qualifiedPayload enc a)) := by
  cases enc with
  | roomTemperature => exact absurd rfl hroom
  | text => exact absurd rfl htext
  | _ => rfl

/-- A signed byte in range decodes to the number it was built from. -/
theorem toInt_valueByte_int8 {z : Int} (hlo : -128 ≤ z) (hhi : z ≤ 127) :
    ((valueCode .int8 (z : Rat)).extractLsb' 0 8).toInt = z := by
  rw [toInt_byte, valueCode_int8_intCast]
  exact asSigned_of_emod 7 z hlo (by omega) _ (ofInt_byte z)

/-- The low two bytes of a number in range decode to the number, as Int16 and the temperatures are sent. -/
theorem toInt_ofInt_two_bytes {z : Int} (hlo : -32768 ≤ z) (hhi : z ≤ 32767) :
    (((BitVec.ofInt 32 z).extractLsb' 0 16).extractLsb' 8 8 ++ ((BitVec.ofInt 32 z).extractLsb' 0 16).extractLsb' 0 8).toInt
      = z := by
  rw [toInt_two_bytes]
  exact asSigned_of_emod 15 z hlo (by omega) _ (by push_cast; exact ofInt_two_bytes z)

/-- The four bytes of a number in range decode to the number. -/
theorem toInt_ofInt_four_bytes {z : Int} (hlo : -2 ^ 31 ≤ z) (hhi : z ≤ 2 ^ 31 - 1) :
    ((BitVec.ofInt 32 z).extractLsb' 24 8 ++ (BitVec.ofInt 32 z).extractLsb' 16 8 ++ (BitVec.ofInt 32 z).extractLsb' 8 8
      ++ (BitVec.ofInt 32 z).extractLsb' 0 8).toInt = z := by
  rw [toInt_four_bytes]
  exact asSigned_of_emod 31 z hlo (by omega) _ (by push_cast; exact ofInt_four_bytes z)

/-- A qualified payload of an integer in the encoding's domain decodes to the integer. -/
theorem decodeValue_qualifiedPayload_int {enc : Encoding} {a : BuildArgs} (hroom : enc ≠ .roomTemperature)
    (htext : enc ≠ .text) (htemp : enc ≠ .temperature) (h : inDomain enc a.value = true) :
    ∃ z : Int, a.value = z ∧ decodeValue enc (qualifiedPayload enc a) = (.int z, true) := by
  cases enc with
  | roomTemperature => exact absurd rfl hroom
  | text => exact absurd rfl htext
  | temperature => exact absurd rfl htemp
  | uint8 =>
    obtain ⟨z, hz, hlo, hhi⟩ := (intWithin_eq_true_iff 0 255 a.value).mp h
    obtain ⟨n, rfl⟩ := Int.eq_ofNat_of_zero_le hlo
    have hbyte : ((valueCode .uint8 a.value).extractLsb' 0 8).toNat = n := by
      rw [hz, Int.cast_natCast]
      exact valueByte_uint8_natCast (by omega)
    refine ⟨n, hz, ?_⟩
    rw [← hbyte]
    rfl
  | int8 =>
    obtain ⟨z, hz, hlo, hhi⟩ := (intWithin_eq_true_iff (-128) 127 a.value).mp h
    refine ⟨z, hz, ?_⟩
    rw [← toInt_valueByte_int8 hlo hhi, ← hz]
    rfl
  | int16 =>
    obtain ⟨z, hz, hlo, hhi⟩ := (intWithin_eq_true_iff (-32768) 32767 a.value).mp h
    refine ⟨z, hz, ?_⟩
    rw [← toInt_ofInt_two_bytes hlo hhi, ← valueCode_int16_intCast, ← hz]
    rfl
  | int32 =>
    obtain ⟨z, hz, hlo, hhi⟩ := (int32_within_iff a.value).mp h
    refine ⟨z, hz, ?_⟩
    rw [← toInt_ofInt_four_bytes hlo hhi, ← valueCode_int32_intCast, ← hz]
    rfl

/-- A qualified temperature in the domain decodes to its fixed-point number divided by 64. -/
theorem decodeValue_qualifiedPayload_temperature {a : BuildArgs} (h : inDomain .temperature a.value = true) :
    decodeValue .temperature (qualifiedPayload .temperature a) = (.rat (scaled a.value / 64), true) := by
  obtain ⟨z, hz, hlo, hhi⟩ := (scaled_within_iff a.value).mp h
  have hscaled := (isRounded_iff_scaled z a.value).mp hz
  refine (decodeValue_temperature (z := scaled a.value) ?_).1
  have hback := toInt_ofInt_two_bytes hlo hhi
  rw [← hscaled] at hback
  exact congrArg (·, true) hback

/-- A rounded fixed-point number is within half a step of the value (R147). -/
theorem abs_scaled_div_sub_le (v : Rat) : |(scaled v : Rat) / 64 - v| ≤ 1 / 128 := by
  obtain ⟨hround, -⟩ := (isRounded_iff_scaled (scaled v) v).mpr rfl
  rw [abs_le] at hround ⊢
  constructor <;> linarith [hround.1, hround.2]

/-- Settles O25: the payload that returns is the row's qualified payload, and its bytes decode to the number they hold. -/
theorem builtPayloadsParseBack : Obligations.BuiltPayloadsParseBack := by
  intro enc a i s t p hroom htext hdomain hdecode hexec hret
  have hbuild := build_of_returned hdecode hexec hret
  rw [build_unicast hroom htext] at hbuild
  injection hbuild with hp
  have hpayload : p.payload = qualifiedPayload enc a := by rw [← hp]; rfl
  rw [hpayload]
  refine ⟨fun htemp => decodeValue_qualifiedPayload_int hroom htext htemp hdomain, ?_⟩
  rintro rfl
  exact ⟨_, decodeValue_qualifiedPayload_temperature hdomain, abs_scaled_div_sub_le a.value⟩

end Sys2Proof.Machine

/-! Info and Ret (44_scheduler.md R192, R196), WRITE with its faults (R195), and what raises a fault or ignores a request
(60_exceptions.md R223 to R229). -/

namespace Sys2Proof.Machine

/-! ### Info and Ret -/

/-- Delivering an Info or a Ret emits its packet, answers every matching point and publishes its value (R164, R192). -/
theorem State.deliver_of_info_or_ret (s : State) {pkt : Packet} (now : Nat)
    (h : pkt.cmd = cmdInfo ∨ pkt.cmd = cmdRetCode) :
    s.deliver pkt now = { s with
      points := s.points.map fun p =>
        if p.conf.fieldId = pkt.field then { p with getCount := 0, nextUpdate := now + p.conf.updateInterval } else p
      out := s.out ++ .packet pkt :: publishedValues pkt.field pkt.payload s.points } := by
  have hvalues : publishedValues pkt.field pkt.payload s.points = valueEvents pkt 0 s.points :=
    (State.valueEvents_eq pkt 0 s.points).symm
  have hmatch (p : Point) : p.matchesField pkt.field = true ↔ p.conf.fieldId = pkt.field := by
    rw [Point.matchesField, beq_iff_eq]
  rw [State.deliver, State.dispatch, if_pos h, State.updateMatching, hvalues, List.append_cons]
  simp only [hmatch]
  rfl

/-- Settles O37: the two rows deliver, and their command bytes are the two that publish. -/
theorem infoAndRetUpdateMatchingPoints : Obligations.InfoAndRetUpdateMatchingPoints := by
  intro f s hf i cmd hmem
  obtain ⟨hrow, hcmd⟩ : exec i s = deliverFrame cmd f s ∧ (cmd = cmdInfo ∨ cmd = cmdRetCode) := by
    simp only [List.mem_cons, List.not_mem_nil, or_false, Prod.mk.injEq] at hmem
    rcases hmem with ⟨rfl, rfl⟩ | ⟨rfl, rfl⟩
    · exact ⟨rfl, .inl rfl⟩
    · exact ⟨rfl, .inr rfl⟩
  rw [hrow, deliverFrame_of_fault_none cmd f hf, State.deliver_of_info_or_ret s s.lastNow hcmd]
  rfl

/-! ### WRITE -/

section Write

variable {s : State} {now k : Nat} {v : Rat} {p : Point}

/-- A WRITE of a value in the domain of a writable point. -/
theorem exec_write_of_inDomain (h : s.Accepts now) (hp : s.points[k]? = some p) (hk : p.conf.kind = .writable)
    (hv : inDomain p.conf.encoding v = true) :
    exec (.write now k v) s = .next ((s.setLastNow now).setPoints (s.points.set k (p.written v))) := by
  refine (State.checked_accepted _ h.1 h.2).trans ?_
  simp [hp, hk, hv]

/-- A WRITE to a missing point. -/
theorem exec_write_of_missing (h : s.Accepts now) (hp : s.points.length ≤ k) :
    exec (.write now k v) s = .next (s.raise .write) := by
  refine (State.checked_accepted _ h.1 h.2).trans ?_
  rw [List.getElem?_eq_none hp]

/-- A WRITE to a sensor. -/
theorem exec_write_of_readOnly (h : s.Accepts now) (hp : s.points[k]? = some p) (hk : p.conf.kind = .readOnly) :
    exec (.write now k v) s = .next (s.raise .write) := by
  refine (State.checked_accepted _ h.1 h.2).trans ?_
  simp [hp, hk]

/-- A WRITE of a value outside the domain of a writable point. -/
theorem exec_write_of_not_inDomain (h : s.Accepts now) (hp : s.points[k]? = some p) (hk : p.conf.kind = .writable)
    (hv : inDomain p.conf.encoding v = false) : exec (.write now k v) s = .next (s.raise .value) := by
  refine (State.checked_accepted _ h.1 h.2).trans ?_
  simp [hp, hk, hv]

end Write

/-- An accepted WRITE to the point behind `before` replaces that point. -/
theorem exec_write_middle {s : State} {now : Nat} {v : Rat} {before after : List Point} {p : Point} (h : s.Accepts now)
    (hpoints : s.points = before ++ p :: after) (hk : p.conf.kind = .writable) (hv : inDomain p.conf.encoding v = true) :
    exec (.write now before.length v) s = .next
      { s with lastNow := now, points := before ++ { p with target := some v, dirty := true } :: after } := by
  have hp : s.points[before.length]? = some p := by simp [hpoints]
  rw [exec_write_of_inDomain h hp hk hv, hpoints, List.set_append_right _ _ le_rfl, Nat.sub_self, List.set_cons_zero]
  rfl

/-- Settles O48: the second WRITE finds the point it has written, and writes the same. -/
theorem writeSetsTargetAndDirty : Obligations.WriteSetsTargetAndDirty := by
  intro s now k v before p after h hpoints hlength hk hv
  subst hlength
  exact ⟨exec_write_middle h hpoints hk hv,
    exec_write_middle (p := { p with target := some v, dirty := true }) ⟨h.1, le_rfl⟩ rfl hk hv⟩

/-- Settles O49. -/
theorem writeRaisesItsFaults : Obligations.WriteRaisesItsFaults :=
  fun _ _ _ _ h => ⟨exec_write_of_missing h,
    fun _ hp => ⟨exec_write_of_readOnly h hp, exec_write_of_not_inDomain h hp⟩⟩

/-! ### Raising and ignoring -/

/-- FEED, TICK and WRITE run behind the checks of R225 and R229. -/
theorem exists_checked {i : Instr} {now : Nat}
    (hi : i = .tick now ∨ (∃ raw, i = .feed now raw) ∨ ∃ k v, i = .write now k v) (s : State) :
    ∃ body, exec i s = s.checked now body := by
  rcases hi with rfl | ⟨raw, rfl⟩ | ⟨k, v, rfl⟩
  · exact ⟨_, rfl⟩
  · exact ⟨_, rfl⟩
  · exact ⟨_, rfl⟩

/-- Settles O50. -/
theorem reservedSelectorRaisesOpAndLateClockRaisesTime : Obligations.ReservedSelectorRaisesOpAndLateClockRaisesTime := by
  refine fun s now hf => ⟨fun operand => State.unlessFaulted_clear _ hf, fun hlate i hi => ?_⟩
  obtain ⟨body, hbody⟩ := exists_checked hi s
  rw [hbody, State.checked_late body hf hlate]
  rfl

/-- A request that decodes is a FEED, a TICK, a WRITE or the reserved one, at its clock value (R83, R84). -/
theorem decodeRequest_cases {op : BitVec 2} {now : Nat} {operand : Operand} {i : Instr}
    (h : decodeRequest op now operand = .ok i) :
    (i = .tick now ∨ (∃ raw, i = .feed now raw) ∨ ∃ k v, i = .write now k v) ∨ i = .reservedOp now operand := by
  unfold decodeRequest at h
  split at h <;> cases h
  · exact .inl (.inr (.inl ⟨_, rfl⟩))
  · exact .inl (.inl rfl)
  · exact .inl (.inr (.inr ⟨_, _, rfl⟩))
  · exact .inr rfl

/-- Settles O51: every request is behind the fault check, and so is every frame row. -/
theorem faultedBlockIgnoresRequestsAndFrames : Obligations.FaultedBlockIgnoresRequestsAndFrames := by
  refine fun s r hf => ⟨fun op now operand i hdecode => ?_, fun cmd f => ?_⟩
  · rcases decodeRequest_cases hdecode with hi | rfl
    · obtain ⟨body, hbody⟩ := exists_checked hi s
      rw [hbody, State.checked_faulted now body hf]
    · exact State.unlessFaulted_faulted _ hf
  · rw [exec_instrOfCommand, deliverFrame, State.unlessFaulted_faulted _ hf]

end Sys2Proof.Machine

/-! TICK (44_scheduler.md R180 to R191): each of the arbiter's scans in the terms of R181 and R182, what it sends or polls, and
what it leaves alone. -/

namespace Sys2Proof.Machine

/-! ### Points as the scans see them (R181, R182) -/

section Scanned

variable (p : Point) (now : Nat)

/-- A point that step 1's scan passed. -/
theorem passed_rearmSet_eq : passed Point.isWritable (Point.rearmSet now) p = p.afterSetScan now := by
  rw [passed, Point.afterSetScan, ite_and]
  simp only [Point.isWritable_iff]
  rfl

/-- A point that step 2's scan passed. -/
theorem passed_rearmGet_writable_eq :
    passed Point.isWritable (Point.rearmGet now) p = p.afterGetScan .writable now := by
  rw [passed, Point.afterGetScan, ite_and]
  simp only [Point.isWritable_iff]
  rfl

/-- A point that step 3's scan passed. -/
theorem passed_rearmGet_readOnly_eq :
    passed Point.isReadOnly (Point.rearmGet now) p = p.afterGetScan .readOnly now := by
  rw [passed, Point.afterGetScan, ite_and]
  simp only [Point.isReadOnly_iff]
  rfl

/-- A point is not ready to set exactly when R181 does not call it due. -/
theorem Point.readyToSet_eq_false_iff : (p.rearmSet now).readyToSet = false ↔ ¬ p.SetDue now := by
  rw [← Bool.not_eq_true]
  exact not_congr (Point.readyToSet_rearmSet_iff p now)

/-- A point is not ready to update exactly when R182 does not call it due. -/
theorem Point.readyToUpdate_eq_false_iff : (p.rearmGet now).readyToUpdate now = false ↔ ¬ p.GetDue now := by
  rw [← Bool.not_eq_true]
  exact not_congr (Point.readyToUpdate_rearmGet_iff p now)

@[simp] theorem Point.afterSetScan_conf : (p.afterSetScan now).conf = p.conf := by
  unfold Point.afterSetScan; split <;> rfl
@[simp] theorem Point.afterSetScan_nextUpdate : (p.afterSetScan now).nextUpdate = p.nextUpdate := by
  unfold Point.afterSetScan; split <;> rfl
@[simp] theorem Point.afterSetScan_getCount : (p.afterSetScan now).getCount = p.getCount := by
  unfold Point.afterSetScan; split <;> rfl
@[simp] theorem Point.afterGetScan_conf (kind : Kind) : (p.afterGetScan kind now).conf = p.conf := by
  unfold Point.afterGetScan; split <;> rfl

/-- Step 1's scan does not change whether a point is due for a poll. -/
@[simp] theorem Point.getDue_afterSetScan : (p.afterSetScan now).GetDue now ↔ p.GetDue now := by
  simp [Point.GetDue]

/-- A point whose set counter starts again if it is exhausted. -/
def Point.freshSet : Point := { p with setCount := if 5 ≤ p.setCount then 0 else p.setCount }

/-- A point whose get counter starts again if it is exhausted. -/
def Point.freshGet : Point := { p with getCount := if 5 ≤ p.getCount then 0 else p.getCount }

variable {p now}

/-- Step 1's scan passes over a sensor. -/
theorem Point.afterSetScan_of_readOnly (h : p.conf.kind = .readOnly) : p.afterSetScan now = p :=
  if_neg (by simp [h])

/-- A scan for polls passes over a point of the other kind. -/
theorem Point.afterGetScan_of_kind_ne {kind : Kind} (h : p.conf.kind ≠ kind) : p.afterGetScan kind now = p :=
  if_neg fun hc => h hc.1

/-- The re-arm of a point that is due for a write clears its counter if that is exhausted (R181). -/
theorem Point.rearmSet_of_setDue (h : p.SetDue now) :
    p.rearmSet now = p.freshSet := by
  obtain ⟨-, hcount⟩ := h
  rw [Point.rearmSet, maxRetries, Point.freshSet]
  by_cases h5 : 5 ≤ p.setCount
  · rw [if_pos ⟨h5, by omega⟩, if_pos h5]
  · rw [if_neg (by omega), if_neg h5]

/-- The re-arm of a point that is due for a poll clears its counter if that is exhausted (R182). -/
theorem Point.rearmGet_of_getDue (h : p.GetDue now) :
    p.rearmGet now = p.freshGet := by
  obtain ⟨-, hcount⟩ := h
  rw [Point.rearmGet, maxRetries, Point.freshGet]
  by_cases h5 : 5 ≤ p.getCount
  · rw [if_pos ⟨h5, by omega⟩, if_pos h5]
  · rw [if_neg (by omega), if_neg h5]

/-- During the back-off the set counter is not re-armed (R181). -/
theorem Point.rearmSet_of_backOff (h : now < p.nextUpdate + p.conf.retryInterval) : p.rearmSet now = p :=
  if_neg (by omega)

/-- During the back-off the get counter is not re-armed (R182). -/
theorem Point.rearmGet_of_backOff (h : now < p.nextUpdate + p.conf.retryInterval) : p.rearmGet now = p :=
  if_neg (by omega)

end Scanned

/-! ### The three scans (R183, R187, R188) -/

section Scans

variable {now : Nat} {before after points : List Point} {p : Point}

/-- With no writable point due for a write step 1's scan passes every point (R181). -/
theorem scanWrites_of_none (h : ∀ q ∈ points, q.conf.kind = .writable → ¬ q.SetDue now) :
    scanWrites now points = .missed (points.map (Point.afterSetScan now)) := by
  rw [scanWrites, scan_of_missed _ _ _ fun q hq hw =>
    (Point.readyToSet_eq_false_iff q now).mpr (h q hq ((Point.isWritable_iff q).mp hw)), ← funext (passed_rearmSet_eq · now)]

/-- Step 1's scan stops at the first writable point that is due for a write (R183). -/
theorem scanWrites_of_first (h : ∀ q ∈ before, q.conf.kind = .writable → ¬ q.SetDue now) (hk : p.conf.kind = .writable)
    (hp : p.SetDue now) :
    scanWrites now (before ++ p :: after) =
      .found (before.map (Point.afterSetScan now)) p.freshSet after := by
  rw [scanWrites, scan_of_found _ _ _ (fun q hq hw =>
    (Point.readyToSet_eq_false_iff q now).mpr (h q hq ((Point.isWritable_iff q).mp hw))) ((Point.isWritable_iff p).mpr hk)
    ((Point.readyToSet_rearmSet_iff p now).mpr hp), ← funext (passed_rearmSet_eq · now), Point.rearmSet_of_setDue hp]

/-- With no writable point due for a poll step 2's scan passes every point (R182). -/
theorem scanWritablePolls_of_none (h : ∀ q ∈ points, q.conf.kind = .writable → ¬ q.GetDue now) :
    scanWritablePolls now points = .missed (points.map (Point.afterGetScan .writable now)) := by
  rw [scanWritablePolls, scan_of_missed _ _ _ fun q hq hw =>
    (Point.readyToUpdate_eq_false_iff q now).mpr (h q hq ((Point.isWritable_iff q).mp hw)),
    ← funext (passed_rearmGet_writable_eq · now)]

/-- Step 2's scan stops at the first writable point that is due for a poll (R187). -/
theorem scanWritablePolls_of_first (h : ∀ q ∈ before, q.conf.kind = .writable → ¬ q.GetDue now)
    (hk : p.conf.kind = .writable) (hp : p.GetDue now) :
    scanWritablePolls now (before ++ p :: after) =
      .found (before.map (Point.afterGetScan .writable now)) p.freshGet after := by
  rw [scanWritablePolls, scan_of_found _ _ _ (fun q hq hw =>
    (Point.readyToUpdate_eq_false_iff q now).mpr (h q hq ((Point.isWritable_iff q).mp hw))) ((Point.isWritable_iff p).mpr hk)
    ((Point.readyToUpdate_rearmGet_iff p now).mpr hp), ← funext (passed_rearmGet_writable_eq · now),
    Point.rearmGet_of_getDue hp]

/-- With no sensor due step 3's scan passes every point (R182). -/
theorem scanSensorPolls_of_none (h : ∀ q ∈ points, q.conf.kind = .readOnly → ¬ q.GetDue now) :
    scanSensorPolls now points = .missed (points.map (Point.afterGetScan .readOnly now)) := by
  rw [scanSensorPolls, scan_of_missed _ _ _ fun q hq hr =>
    (Point.readyToUpdate_eq_false_iff q now).mpr (h q hq ((Point.isReadOnly_iff q).mp hr)),
    ← funext (passed_rearmGet_readOnly_eq · now)]

/-- Step 3's scan stops at the first sensor that is due (R188). -/
theorem scanSensorPolls_of_first (h : ∀ q ∈ before, q.conf.kind = .readOnly → ¬ q.GetDue now)
    (hk : p.conf.kind = .readOnly) (hp : p.GetDue now) :
    scanSensorPolls now (before ++ p :: after) =
      .found (before.map (Point.afterGetScan .readOnly now)) p.freshGet after := by
  rw [scanSensorPolls, scan_of_found _ _ _ (fun q hq hr =>
    (Point.readyToUpdate_eq_false_iff q now).mpr (h q hq ((Point.isReadOnly_iff q).mp hr))) ((Point.isReadOnly_iff p).mpr hk)
    ((Point.readyToUpdate_rearmGet_iff p now).mpr hp), ← funext (passed_rearmGet_readOnly_eq · now),
    Point.rearmGet_of_getDue hp]

end Scans

/-! ### What goes onto the line (R191) -/

/-- A packet's line bytes, read in numbers. -/
theorem lineFrame_eq_lineBytes {p : Packet} (h : p.payload.length ≤ 244) : lineFrame p = lineBytes p := by
  rw [lineFrame, serializeBytes_eq_sent p h]
  rfl

/-- The line bytes of a built packet. -/
theorem IsBuilt.lineFrame_eq {p : Packet} (h : IsBuilt p) : lineFrame p = lineBytes p := by
  obtain ⟨q, rfl, hq, -⟩ := h
  exact lineFrame_eq_lineBytes hq

/-- The line bytes of a point's Get. -/
theorem lineFrame_buildGetPacket (s : State) (p : Point) :
    lineFrame (buildGetPacket s.srcAddr s.dstAddr p.conf.fieldId) = lineGet s p :=
  lineFrame_eq_lineBytes (Nat.zero_le 244)

/-- The selector of a point is its encoding's code and its broadcast flag (R85). -/
theorem builderSelector_eq_append (conf : PointConf) :
    builderSelector conf = encodingCode conf.encoding ++ BitVec.ofBool conf.isBroadcast := by
  unfold builderSelector
  cases conf.encoding <;> cases conf.isBroadcast <;> rfl

/-! ### TICK, by what its scans find -/

/-- An accepted TICK runs the arbiter at the clock value it writes (R180). -/
theorem exec_tick_of_accepts {s : State} {now : Nat} (h : s.Accepts now) :
    exec (.tick now) s = (s.setLastNow now).arbitrate now :=
  State.checked_accepted _ h.1 h.2

section Tick

variable {s : State} {now : Nat} {before : List Point} {p : Point} {after : List Point}

/-- With a writable point due for a write TICK sends the first one (R183). -/
theorem exec_tick_of_setDue (h : s.Accepts now) (hpoints : s.points = before ++ p :: after)
    (hbefore : ∀ q ∈ before, q.conf.kind = .writable → ¬ q.SetDue now) (hk : p.conf.kind = .writable) (hp : p.SetDue now) :
    exec (.tick now) s = (s.setLastNow now).sendWrite now (before.map (Point.afterSetScan now)) p.freshSet after := by
  rw [exec_tick_of_accepts h, State.arbitrate_write]
  rw [State.setLastNow_points, hpoints]
  exact scanWrites_of_first hbefore hk hp

/-- A write whose builder returns a packet is transmitted and booked (R184, R185). -/
theorem State.sendWrite_of_packet {v : Rat} {pkt : Packet} (hv : p.target = some v)
    (hb : build (builderSelector p.conf) (s.buildArgs p v) = .packet pkt) :
    s.sendWrite now before p after =
      .next ((s.setPoints (before ++ p.sentWrite now s.cfg.postSetPollInterval :: after)).transmit pkt) := by
  simp [State.sendWrite, hv, hb]

/-- A write whose builder returns no packet is booked (R186). -/
theorem State.sendWrite_of_noPacket {v : Rat} (hv : p.target = some v)
    (hb : build (builderSelector p.conf) (s.buildArgs p v) = .noPacket) :
    s.sendWrite now before p after = .next (s.setPoints (before ++ p.sentWrite now s.cfg.postSetPollInterval :: after)) := by
  simp [State.sendWrite, hv, hb]

/-- A ready write whose builder row returns a packet: TICK sends its line bytes and books the write. -/
theorem exec_tick_of_packet {v : Rat} {i : Instr} {pkt : Packet} (h : s.Accepts now)
    (hpoints : s.points = before ++ p :: after) (hbefore : ∀ q ∈ before, q.conf.kind = .writable → ¬ q.SetDue now)
    (hk : p.conf.kind = .writable) (hp : p.SetDue now) (hv : p.target = some v)
    (hdecode : decode (.builder (encodingCode p.conf.encoding ++ BitVec.ofBool p.conf.isBroadcast) (pointArgs s p v)) = .ok i)
    (hexec : exec i s = .next { s with ret := some (.packet pkt) }) :
    exec (.tick now) s = .next { s with
      lastNow := now
      points := before.map (Point.afterSetScan now)
        ++ p.freshSet.sentWrite now s.cfg.postSetPollInterval :: after
      out := s.out ++ [.tx (lineBytes pkt)] } := by
  have hbuild := build_of_returned hdecode hexec rfl
  rw [← builderSelector_eq_append] at hbuild
  rw [exec_tick_of_setDue h hpoints hbefore hk hp, State.sendWrite_of_packet (s := s.setLastNow now) (p := p.freshSet) hv hbuild,
    ← (isBuilt_of_build hbuild).lineFrame_eq]
  rfl

end Tick

/-- Settles O40: the bookkeeping of a unicast write. -/
theorem tickSendsTheFirstReadyUnicastWrite : Obligations.TickSendsTheFirstReadyUnicastWrite := by
  intro s now before p after v i pkt h hpoints hbefore hk hp huni hv hdecode hexec
  rw [exec_tick_of_packet h hpoints hbefore hk hp hv (by rw [huni]; exact hdecode) hexec]
  simp only [Point.sentWrite, Point.freshSet, huni, Bool.false_eq_true, if_false]
  rfl

/-- Settles O41: the bookkeeping of a broadcast write. -/
theorem tickCompletesABroadcastWrite : Obligations.TickCompletesABroadcastWrite := by
  intro s now before p after v i pkt h hpoints hbefore hk hp hbroad hv hdecode hexec
  rw [exec_tick_of_packet h hpoints hbefore hk hp hv (by rw [hbroad]; exact hdecode) hexec]
  simp only [Point.sentWrite, Point.freshSet, hbroad, if_true]
  rfl

/-- Settles O42: the selector of a unicast RoomTemperature point builds no packet. -/
theorem tickSpendsASilentRoomTemperatureSet : Obligations.TickSpendsASilentRoomTemperatureSet := by
  intro s now before p after h hpoints hbefore hk hp huni hroom htarget
  obtain ⟨v, hv⟩ := Option.ne_none_iff_exists'.mp htarget
  have hbuild (a : BuildArgs) : build (builderSelector p.conf) a = .noPacket := by
    rw [builderSelector_eq_append, hroom, huni]
    rfl
  rw [exec_tick_of_setDue h hpoints hbefore hk hp, State.sendWrite_of_noPacket (p := p.freshSet) hv (hbuild _)]
  simp only [Point.sentWrite, Point.freshSet, huni, Bool.false_eq_true, if_false]
  rfl

/-- The Get of a due point, booked and transmitted at the clock value of the TICK (R189). -/
theorem State.sendGet_freshGet (s : State) (now : Nat) (before : List Point) (p : Point) (after : List Point) :
    (s.setLastNow now).sendGet before p.freshGet after = { s with
      lastNow := now
      points := before ++ { p with getCount := (if 5 ≤ p.getCount then 0 else p.getCount) + 1 } :: after
      out := s.out ++ [.tx (lineGet s p)] } := by
  rw [← lineFrame_buildGetPacket]
  rfl

/-- A point's Get is that of its configuration. -/
theorem lineGet_congr (s : State) {p q : Point} (h : p.conf = q.conf) : lineGet s p = lineGet s q := by
  rw [lineGet, lineGet, h]

/-- Settles O43: step 1's scan changes no point's poll, so step 2's scan finds the first due writable point. -/
theorem tickPollsTheFirstDueWritablePoint : Obligations.TickPollsTheFirstDueWritablePoint := by
  intro s now before p after h hpoints hwrites hbefore hk hp
  have hscan1 : scanWrites now s.points = .missed
      (before.map (Point.afterSetScan now) ++ p.afterSetScan now :: after.map (Point.afterSetScan now)) := by
    rw [scanWrites_of_none hwrites, hpoints, List.map_append, List.map_cons]
  have hscan2 := scanWritablePolls_of_first (now := now) (before := before.map (Point.afterSetScan now))
    (p := p.afterSetScan now) (after := after.map (Point.afterSetScan now))
    (List.forall_mem_map.mpr fun q hq => by simpa using hbefore q hq) (by simpa using hk) (by simpa using hp)
  rw [exec_tick_of_accepts h, State.arbitrate_writablePoll (s := s.setLastNow now) hscan1 hscan2, State.sendGet_freshGet, List.map_map,
    Point.afterSetScan_getCount, lineGet_congr s (Point.afterSetScan_conf p now)]
  rfl

/-- Settles O44: the first two scans change no sensor, so step 3's scan finds the first due one. -/
theorem tickPollsTheFirstDueSensor : Obligations.TickPollsTheFirstDueSensor := by
  intro s now before p after h hpoints hwritable hbefore hk hp
  have hsensor {q : Point} (hq : q.conf.kind = .readOnly) : (q.afterSetScan now).afterGetScan .writable now = q := by
    rw [Point.afterSetScan_of_readOnly hq, Point.afterGetScan_of_kind_ne (by simp [hq])]
  have hscan1 : scanWrites now s.points = .missed (s.points.map (Point.afterSetScan now)) :=
    scanWrites_of_none fun q hq hw => (hwritable q hq hw).1
  have hscan2 : scanWritablePolls now (s.points.map (Point.afterSetScan now)) = .missed
      (before.map (fun q => (q.afterSetScan now).afterGetScan .writable now)
        ++ p :: after.map (fun q => (q.afterSetScan now).afterGetScan .writable now)) := by
    rw [scanWritablePolls_of_none (List.forall_mem_map.mpr fun q hq hw => by
      simpa using (hwritable q hq (by simpa using hw)).2), List.map_map, hpoints, List.map_append, List.map_cons]
    simp only [Function.comp_apply, hsensor hk]
    rfl
  have hscan3 := scanSensorPolls_of_first (now := now) (p := p)
    (before := before.map (fun q => (q.afterSetScan now).afterGetScan .writable now))
    (after := after.map (fun q => (q.afterSetScan now).afterGetScan .writable now))
    (List.forall_mem_map.mpr fun q hq hr => by
      have hr' : q.conf.kind = .readOnly := by simpa using hr
      rw [hsensor hr']
      exact hbefore q hq hr') hk hp
  rw [exec_tick_of_accepts h, State.arbitrate_sensorPoll (s := s.setLastNow now) hscan1 hscan2 hscan3, State.sendGet_freshGet, List.map_map]
  rfl

/-- Settles O45: the three scans pass every point. -/
theorem tickWithNothingReadyOnlyRearms : Obligations.TickWithNothingReadyOnlyRearms := by
  intro s now h hwrites hpolls
  have hscan1 : scanWrites now s.points = .missed (s.points.map (Point.afterSetScan now)) := scanWrites_of_none hwrites
  have hscan2 := scanWritablePolls_of_none (now := now) (points := s.points.map (Point.afterSetScan now))
    (List.forall_mem_map.mpr fun q hq _ => by simpa using hpolls q hq)
  have hscan3 := scanSensorPolls_of_none (now := now)
    (points := (s.points.map (Point.afterSetScan now)).map (Point.afterGetScan .writable now))
    (List.forall_mem_map.mpr (List.forall_mem_map.mpr fun q hq hr => by
      rw [Point.afterGetScan_conf, Point.afterSetScan_conf] at hr
      rw [Point.afterGetScan_of_kind_ne (by simp [hr]), Point.getDue_afterSetScan]
      exact hpolls q hq))
  rw [exec_tick_of_accepts h, State.arbitrate_none (s := s.setLastNow now) hscan1 hscan2 hscan3, List.map_map, List.map_map]
  rfl

/-- The command byte of a packet on the line (R70, R78). -/
theorem lineFrame_getElem_four (p : Packet) : (lineFrame p)[4]? = some (p.cmd ^^^ 0xFF) := rfl

/-- Settles O46: the first scan finds a write, and what a builder returns is a Set or an Info. -/
theorem readyWritePreemptsPolls : Obligations.ReadyWritePreemptsPolls := by
  rintro s t now h ⟨p, hp, hk, hdue⟩ hexec
  rw [exec_tick_of_accepts h] at hexec
  rcases scan_cases Point.isWritable (Point.rearmSet now) Point.readyToSet s.points with
    ⟨hnone, -⟩ | ⟨before, q, after, -, -, -, -, hfound⟩
  · have hready := hnone p hp ((Point.isWritable_iff p).mpr hk)
    exact absurd hdue ((Point.readyToSet_eq_false_iff p now).mp hready)
  · rw [State.arbitrate_write (s := s.setLastNow now) hfound] at hexec
    rcases State.sendWrite_cases (s.setLastNow now) now (before.map (passed Point.isWritable (Point.rearmSet now)))
        (q.rearmSet now) after with ⟨-, e⟩ | ⟨v, -, ⟨pkt, hbuild, e⟩ | ⟨-, e⟩ | ⟨-, e⟩⟩ <;> rw [e] at hexec <;> cases hexec
    · obtain ⟨q', rfl, -, hcmd⟩ := isBuilt_of_build hbuild
      refine .inr ⟨_, rfl, ?_⟩
      rw [lineFrame_getElem_four]
      exact hcmd.imp (congrArg fun c => some (c ^^^ 0xFF)) (congrArg fun c => some (c ^^^ 0xFF))
    · exact .inl rfl

/-- What a TICK does to a point during its back-off leaves the counters that are exhausted (R181, R182). -/
theorem Point.Ticked.keeps_exhausted {now interval : Nat} {p q : Point} (h : Point.Ticked now interval p q)
    (hback : now < p.nextUpdate + p.conf.retryInterval) :
    (5 ≤ p.getCount → q.getCount = p.getCount) ∧ (5 ≤ p.setCount → q.setCount = p.setCount) := by
  have hset := Point.rearmSet_of_backOff hback
  have hget := Point.rearmGet_of_backOff hback
  cases h with
  | same => exact ⟨fun _ => rfl, fun _ => rfl⟩
  | setRearmed => rw [hset]; exact ⟨fun _ => rfl, fun _ => rfl⟩
  | getRearmed => rw [hget]; exact ⟨fun _ => rfl, fun _ => rfl⟩
  | bothRearmed => rw [hset, hget]; exact ⟨fun _ => rfl, fun _ => rfl⟩
  | wrote _ hready =>
    rw [hset] at hready ⊢
    have hcount : p.setCount < 5 := of_decide_eq_true (Bool.and_eq_true_iff.mp hready).1
    refine ⟨fun _ => ?_, fun h5 => absurd h5 (by omega)⟩
    rw [Point.sentWrite]
    split <;> rfl
  | polledWritable _ hready =>
    rw [hset, hget] at hready ⊢
    have hcount : p.getCount < 5 := of_decide_eq_true (Bool.and_eq_true_iff.mp hready).1
    exact ⟨fun h5 => absurd h5 (by omega), fun _ => rfl⟩
  | polledSensor _ hready =>
    rw [hget] at hready ⊢
    have hcount : p.getCount < 5 := of_decide_eq_true (Bool.and_eq_true_iff.mp hready).1
    exact ⟨fun h5 => absurd h5 (by omega), fun _ => rfl⟩

/-- A TICK does to each point what the arbiter may do to it. -/
theorem ticked_of_exec_tick {s t : State} {now : Nat} (h : exec (.tick now) s = .next t) :
    List.Forall₂ (Point.Ticked now s.cfg.postSetPollInterval) s.points t.points := by
  cases effect_of_exec _ s t h with
  | same | raise => exact List.forall₂_same.mpr fun _ _ => .same
  | answer a htick => exact absurd rfl (htick now)
  | feed now' raw hi => cases hi
  | tick now' ps evs hi _ hticked => cases hi; exact hticked
  | write now' k v p hi => cases hi
  | deliver cmd f htick => exact absurd rfl (htick now)

/-- Settles O47: the k-th point is ticked, and during its back-off that leaves its exhausted counters. -/
theorem tickKeepsExhaustedCountersDuringBackOff : Obligations.TickKeepsExhaustedCountersDuringBackOff := by
  intro s t now k p hexec hp hback
  have hticked := ticked_of_exec_tick hexec
  obtain ⟨hk, rfl⟩ := List.getElem?_eq_some_iff.mp hp
  have hk' : k < t.points.length := hticked.length_eq ▸ hk
  exact ⟨t.points[k], List.getElem?_eq_getElem hk', (hticked.get hk hk').keeps_exhausted hback⟩

end Sys2Proof.Machine
